-- ==== Sys2Proof/Word.lean ====
section
/-! DEFINITION. The word types of the csfhw1 CORE (spec 00_scope R8, R10, R11; 10_state R31, R43).
Every value is unsigned; a bit vector is used where the spec itself shifts, masks or wraps. -/

namespace Sys2Proof

/-- One 32-bit unsigned unit of a value; also the width of the port (R8 `WBITS`, R70). -/
abbrev Word := BitVec 32

/-- One character of HEXBUF (R43). -/
abbrev Byte := BitVec 8

/-- A 4-bit unit, one hexadecimal digit (R11, R16). -/
abbrev Nibble := BitVec 4

/-- The contents of a value register: a 256-bit unsigned value (R8 `WIDTH`, R31). -/
abbrev Value := BitVec 256

/-- The character buffer: exactly 68 bytes (R8 `HEXBUF_BYTES`, R43). -/
abbrev HexBuf := Vector Byte 68

end Sys2Proof
end

