-- ==== Sys2Proof/Config.lean ====
section
/-! DEFINITION. The implementation parameters "the model takes as arguments" (spec 00_scope R9). No
architectural value depends on any of them; they say where the host sees the window and when a
command completes. The fixed interface leaves State as the one place an argument of the machine can
stand, so State carries this record and no step changes it (log 3). -/

namespace Sys2Proof

/-- The multiplier's internal algorithm `MUL_ALG` (R9, R231). -/
inductive MulAlg
  | /-- one shift-and-add step for each bit of B, the reference algorithm of R230 -/ shiftAndAdd
  | /-- radix-4 Booth recoding of B (R231; its digit set is PRESUMED, log 10) -/ booth
  | /-- any other method: the product by R231's law -/ other
  deriving DecidableEq, Repr

/-- `CORE_BASE`, the ten latencies in clock cycles, and `MUL_ALG` (R9). -/
structure Config where
  /-- `CORE_BASE` in units of 256 bytes, so that the base is aligned by construction (R9, R72). -/
  window : Nat
  latLdi : Nat
  latHexdec : Nat
  latHexsh : Nat
  latHexenc : Nat
  latBtst : Nat
  latAdd : Nat
  latNeg : Nat
  latSub : Nat
  latShl : Nat
  latMul : Nat
  mulAlg : MulAlg
  deriving DecidableEq, Repr

/-- `CORE_BASE`: the host byte address of the window, aligned to 256 bytes (R72). -/
def Config.coreBase (c : Config) : Nat := 256 * c.window

/-- DESIGN CHOICE (log 3): the parameters `State.reset` carries, since it must carry some. Statements
quantify over every `Config`, so none rests on these values. -/
def Config.atReset : Config :=
  { window := 0, latLdi := 0, latHexdec := 0, latHexsh := 0, latHexenc := 0, latBtst := 0,
    latAdd := 0, latNeg := 0, latSub := 0, latShl := 0, latMul := 0, mulAlg := .shiftAndAdd }

end Sys2Proof
end

