-- ==== Sys2Proof/Syntax.lean ====
section
/-! DEFINITION. What the host can ask of the block: the ten commands of format C (spec 30_encoding
R111 to R114) and the two host accesses (20_memory R81), one constructor of `Instr` per row of
spec/opcode_table.json. -/

namespace Sys2Proof

/-- The value register a command's DST field selects: 00 R, 01 A, 10 B (R113). The reserved value 11
has no constructor, so no term of the syntax can name it. -/
inductive Dst
  | r | a | b
  deriving DecidableEq, Repr

/-- The ten opcodes of R112. -/
inductive Opcode
  | ldi | hexdec | hexsh | hexenc | btst | add | neg | sub | shl | mul
  deriving DecidableEq, Repr

/-- The instructions. A command statement is the host's write of its command word to CMD (R119); `rd`
and `wr` are the other accesses, at a 6-bit word offset (R70 `addr`). -/
inductive Instr
  | /-- `ldi.<d>`, create-from-small-int (R145) -/ ldi (d : Dst)
  | /-- `hexdec.<d>`, create-from-hex over the buffer (R143) -/ hexdec (d : Dst)
  | /-- `hexsh.<d>`, create-from-hex, one character (R147) -/ hexsh (d : Dst)
  | /-- `hexenc`, format-as-hex (R170) -/ hexenc
  | /-- `btst`, is-bit-set (R190) -/ btst
  | /-- `add.<d>` (R211) -/ add (d : Dst)
  | /-- `neg.<d>` (R215) -/ neg (d : Dst)
  | /-- `sub.<d>` (R219) -/ sub (d : Dst)
  | /-- `shl.<d>` (R224) -/ shl (d : Dst)
  | /-- `mul.<d>` (R230) -/ mul (d : Dst)
  | /-- `rd <reg>`, one bus read of a word offset (R81, R82) -/ rd (off : BitVec 6)
  | /-- `wr <reg>, v`, one bus write of a word (R81, R83) -/ wr (off : BitVec 6) (v : Word)
  deriving DecidableEq, Repr

/-- One access as the port carries it: `we`, `addr`, `wdata` (R70). -/
structure PortAccess where
  we : Bool
  addr : BitVec 6
  wdata : Word
  deriving DecidableEq, Repr

/-- The word offset of CMD (R37, R73). -/
def cmdOffset : BitVec 6 := 25

/-- The word offset of STATUS (R38, R73). -/
def statusOffset : BitVec 6 := 26

end Sys2Proof
end

