-- ==== Sys2Proof/Decode.lean ====
section
/-! DEFINITION. Decoding (spec 30_encoding R110 to R116, R121) and, after it, the encoder. A command
word is decoded in one place, by name of what makes it illegal; a port access decodes to exactly one
instruction, so nothing the port can carry is left without a meaning. -/

namespace Sys2Proof

/-! ## Command words -/

/-- Why a word written to CMD is no legal command (R115, R116, R263). -/
inductive IllegalCommand
  | /-- v[31:6] is not 0 -/ reservedBits
  | /-- v[3:0] is 0x0 or 0xB to 0xF -/ reservedOpcode
  | /-- v[5:4] is 11 -/ reservedDst
  | /-- HEXENC or BTST with v[5:4] other than 00 (R114) -/ dstNotZero
  deriving DecidableEq, Repr

/-- The OP field, bits [3:0] (R111). -/
def opField (v : Word) : BitVec 4 := v.extractLsb' 0 4

/-- The DST field, bits [5:4] (R111). -/
def dstField (v : Word) : BitVec 2 := v.extractLsb' 4 2

/-- The RES field, bits [31:6] (R111). -/
def resField (v : Word) : BitVec 26 := v.extractLsb' 6 26

/-- The legality predicate, as R115 writes it. -/
def legal (v : Word) : Bool :=
  resField v = 0 ∧ (1 ≤ (opField v).toNat ∧ (opField v).toNat ≤ 0xA) ∧ dstField v ≠ 3 ∧
    ((opField v = 4 ∨ opField v = 5) → dstField v = 0)

/-- The opcode map (R112). -/
def opcodeOf (n : BitVec 4) : Option Opcode :=
  match n.toNat with
  | 0x1 => some .ldi
  | 0x2 => some .hexdec
  | 0x3 => some .hexsh
  | 0x4 => some .hexenc
  | 0x5 => some .btst
  | 0x6 => some .add
  | 0x7 => some .neg
  | 0x8 => some .sub
  | 0x9 => some .shl
  | 0xA => some .mul
  | _ => none

/-- The DST field's meaning (R113). -/
def dstOf (n : BitVec 2) : Option Dst :=
  match n.toNat with
  | 0 => some .r
  | 1 => some .a
  | 2 => some .b
  | _ => none

/-- HEXENC and BTST write no value register, so their DST must be 00 (R114). -/
def Opcode.writesValue : Opcode → Bool
  | .hexenc | .btst => false
  | .ldi | .hexdec | .hexsh | .add | .neg | .sub | .shl | .mul => true

/-- A command word's opcode and destination, or the name of what makes the word illegal. -/
def decodeCommand (v : Word) : Except IllegalCommand (Opcode × Dst) :=
  if resField v ≠ 0 then .error .reservedBits
  else match opcodeOf (opField v), dstOf (dstField v) with
    | none, _ => .error .reservedOpcode
    | some _, none => .error .reservedDst
    | some op, some d => if op.writesValue ∨ d = .r then .ok (op, d) else .error .dstNotZero

/-- The instruction a legal command stands for. -/
def instrOf (op : Opcode) (d : Dst) : Instr :=
  match op with
  | .ldi => .ldi d
  | .hexdec => .hexdec d
  | .hexsh => .hexsh d
  | .hexenc => .hexenc
  | .btst => .btst
  | .add => .add d
  | .neg => .neg d
  | .sub => .sub d
  | .shl => .shl d
  | .mul => .mul d

/-- The opcode and destination of a command instruction; none for a plain access. -/
def commandOf (i : Instr) : Option (Opcode × Dst) :=
  match i with
  | .ldi d => some (.ldi, d)
  | .hexdec d => some (.hexdec, d)
  | .hexsh d => some (.hexsh, d)
  | .hexenc => some (.hexenc, .r)
  | .btst => some (.btst, .r)
  | .add d => some (.add, d)
  | .neg d => some (.neg, d)
  | .sub d => some (.sub, d)
  | .shl d => some (.shl, d)
  | .mul d => some (.mul, d)
  | .rd _ => none
  | .wr _ _ => none

/-! ## Port accesses -/

/-- The instruction a port access is: a read, a write, or, for a write of a legal word to CMD, the
command that word names (R110, R119; log 13). -/
def decodePort (p : PortAccess) : Instr :=
  if p.we then
    if p.addr = cmdOffset then
      match decodeCommand p.wdata with
      | .ok (op, d) => instrOf op d
      | .error _ => .wr p.addr p.wdata
    else .wr p.addr p.wdata
  else .rd p.addr

/-! ## The encoder -/

/-- The opcode number (R112). -/
def Opcode.code : Opcode → BitVec 4
  | .ldi => 0x1
  | .hexdec => 0x2
  | .hexsh => 0x3
  | .hexenc => 0x4
  | .btst => 0x5
  | .add => 0x6
  | .neg => 0x7
  | .sub => 0x8
  | .shl => 0x9
  | .mul => 0xA

/-- The DST number (R113). -/
def Dst.code : Dst → BitVec 2
  | .r => 0
  | .a => 1
  | .b => 2

/-- Format C: OP at [3:0], DST at [5:4], RES = 0 (R111). -/
def encodeCommand (op : Opcode) (d : Dst) : Word :=
  op.code.setWidth 32 ||| d.code.setWidth 32 <<< 4

/-- The access the host presents for an instruction (R81, R119). -/
def encode (i : Instr) : PortAccess :=
  match i with
  | .rd off => { we := false, addr := off, wdata := 0 }
  | .wr off v => { we := true, addr := off, wdata := v }
  | .ldi d => { we := true, addr := cmdOffset, wdata := encodeCommand .ldi d }
  | .hexdec d => { we := true, addr := cmdOffset, wdata := encodeCommand .hexdec d }
  | .hexsh d => { we := true, addr := cmdOffset, wdata := encodeCommand .hexsh d }
  | .hexenc => { we := true, addr := cmdOffset, wdata := encodeCommand .hexenc .r }
  | .btst => { we := true, addr := cmdOffset, wdata := encodeCommand .btst .r }
  | .add d => { we := true, addr := cmdOffset, wdata := encodeCommand .add d }
  | .neg d => { we := true, addr := cmdOffset, wdata := encodeCommand .neg d }
  | .sub d => { we := true, addr := cmdOffset, wdata := encodeCommand .sub d }
  | .shl d => { we := true, addr := cmdOffset, wdata := encodeCommand .shl d }
  | .mul d => { we := true, addr := cmdOffset, wdata := encodeCommand .mul d }

/-! ## The opcode table's words -/

/-- The access that stands for a word of the opcode table (log 2). A written word has 32 bits (R118), and
the words of the table are written to CMD; the row of the bus read has no data word, so fewer bits are a
read, of the offset in bits [5:0]. -/
def tableAccess (nbits w : Nat) : PortAccess :=
  if nbits < 32 then { we := false, addr := BitVec.ofNat 6 w, wdata := 0 }
  else { we := true, addr := cmdOffset, wdata := BitVec.ofNat 32 w }

/-- The instruction the decoder reads from a word of the opcode table. -/
def decodeTableWord (nbits w : Nat) : Option Instr :=
  if nbits ≤ 32 ∧ w < 2 ^ 32 then some (decodePort (tableAccess nbits w)) else none

end Sys2Proof
end

