-- ==== Sys2Proof/Machine/State.lean ====
section
/-! DEFINITION. The state of the csfhw1 CORE as plain data (spec 10_state R30 to R45), the machine right
after reset, and the reasons a step of the model can stop. -/

namespace Sys2Proof.Machine

/-- STATUS.ERR's four values (R41). Values 4 to 15 never occur, so none can be written down. -/
inductive ErrCode
  | /-- 0 NONE: the last command completed normally -/ noError
  | /-- 1 ILLEGAL_CMD (R263) -/ illegalCmd
  | /-- 2 SHIFT_RANGE (R264) -/ shiftRange
  | /-- 3 HEXLEN_RANGE (R265) -/ hexlenRange
  deriving DecidableEq, Repr

/-- The operand values sampled when a command is accepted (R44, R303). All five are sampled whatever
the opcode (log 8); each command reads the ones R47 gives it. -/
structure Operands where
  a : Value
  b : Value
  s : Word
  hexlen : BitVec 7
  hexbuf : HexBuf
  deriving DecidableEq, Repr

/-- The in-flight command record (R44). -/
structure InFlight where
  op : Opcode
  dst : Dst
  ops : Operands
  /-- the number of cycles left before completion -/
  left : Nat
  deriving DecidableEq, Repr

/-- The port's answer to the access that completed at an edge: `rdata` and `err` (R70, R71). -/
structure Response where
  rdata : Word
  err : Bool
  deriving DecidableEq, Repr

/-- An access as the host's bus carries it: a byte address and a width in bytes. Only an aligned 32-bit
access inside the window reaches the port (R72, R77, R78; log 6). -/
structure HostAccess where
  we : Bool
  addr : Nat
  bytes : Nat
  wdata : Word
  deriving DecidableEq, Repr

/-- What the host and the reset logic drive for one rising edge, or, for an access, from the edge at
which it is presented until it completes (R71, R300). -/
inductive Input
  | /-- an edge with `rst` = 1; it wins over anything presented at it (R302) -/ reset
  | /-- an edge with `rst` = 0 and `req` = 0 -/ idle
  | /-- `req` = 1 with this access, held stable until it completes -/ access (h : HostAccess)
  deriving DecidableEq, Repr

/-- The machine. The first group is R30's list; STATUS.BUSY is the presence of `inflight` (log 7). The
second group is the model's own (logs 2 to 5). -/
structure State where
  /-- value register A (R31) -/
  a : Value
  /-- value register B (R31) -/
  b : Value
  /-- value register R (R31) -/
  r : Value
  /-- scalar operand S (R33) -/
  s : Word
  /-- last command word written (R37) -/
  cmd : Word
  /-- STATUS.BIT (R40) -/
  bit : Bool
  /-- STATUS.ERR (R41) -/
  err : ErrCode
  /-- HEXLEN (R42) -/
  hexlen : BitVec 7
  /-- HEXBUF, byte 0 first (R43) -/
  hexbuf : HexBuf
  /-- the in-flight command (R44) -/
  inflight : Option InFlight
  /-- the implementation parameters (R9); no step changes them -/
  cfg : Config
  /-- what is driven at the coming edges, oldest first -/
  inputs : List Input
  /-- the port's answer at the last edge, if an access completed there -/
  resp : Option Response
  /-- whether an edge with `rst` = 1 has come since power-on (R301) -/
  resetSeen : Bool
  deriving DecidableEq, Repr

/-- Every state element at its reset value (R45, R300), for a block with the parameters `c`. -/
def State.resetWith (c : Config) : State :=
  { a := 0, b := 0, r := 0, s := 0, cmd := 0, bit := false, err := .noError, hexlen := 0,
    hexbuf := Vector.replicate 68 0, inflight := none,
    cfg := c, inputs := [], resp := none, resetSeen := true }

/-- The machine right after reset (R45), with nothing presented at the port. -/
def State.reset : State := State.resetWith Config.atReset

/-- No error of the block stops it (R260: "Neither kind of error stops the block"), so the machine has
no fault (log 15): both kinds of error are next states. Safe: nothing is hidden behind a stop. -/
inductive Fault
  deriving DecidableEq, Repr

/-- Why the model gives a step no meaning. -/
inductive Refusal
  | /-- Raised by an arm of `exec` that has no meaning yet; no arm of this model raises it. Safe. -/
    notModelled (mnemonic : String)
  | /-- Raised by `step`: an access before the first edge with `rst` = 1; "a model refuses it" (R46,
    R301, U7). Safe. -/
    accessBeforeReset
  | /-- Raised by `step`: a host access narrower or wider than 32 bits, which never reaches the block;
    "a model refuses it" (R77, U8). Safe. -/
    accessWidth
  | /-- Raised by `step`: a misaligned host access, which never reaches the block; "a model refuses it"
    (R78, U8). Safe. -/
    accessMisaligned
  | /-- Raised by `step`: a host address outside the 256-byte window, which never addresses the block
    (R72; log 6). Safe. -/
    accessOutsideWindow
  deriving DecidableEq, Repr

/-- What a step or a meaning answers. -/
abbrev Outcome := Host.Outcome State Fault Refusal

end Sys2Proof.Machine
end

