-- ==== Sys2Proof/Machine/Operands.lean ====
section
/-! DEFINITION. Operand forms: words, nibbles and bytes of the registers (spec 00_scope R11, 20_memory
R75, R76), the destination field (30_encoding R113), the sampling of operands (70_reset R303), and the
register window's map (20_memory R73). -/

namespace Sys2Proof.Machine

/-! ## Words and nibbles of a value -/

/-- `v.w[k]` (R11). -/
def word (v : Value) (k : Nat) : Word := v.extractLsb' (32 * k) 32

/-- The eight words of a value, word 0 first (R31). -/
def words (v : Value) : List Word := (List.range 8).map (word v)

/-- `Σ word[i] · 2^(32·i)`, word 0 first (R11, R31). -/
def wordsNat : List Word → Nat
  | [] => 0
  | w :: ws => w.toNat + 2 ^ 32 * wordsNat ws

/-- The value whose words are listed, word 0 first (R31). -/
def ofWords (ws : List Word) : Value := BitVec.ofNat 256 (wordsNat ws)

/-- `v` with word k replaced: `v.w[k] <- x`; the other seven words keep their values (R32). -/
def setWord (v : Value) (k : Nat) (x : Word) : Value := ofWords ((words v).set k x)

/-- `v.n[j]` (R11). -/
def nibble (v : Value) (j : Nat) : Nibble := v.extractLsb' (4 * j) 4

/-! ## Words of HEXBUF -/

/-- HEXBUF.w[k]: byte 4k in the least significant lane (R43, R76). -/
def hexWord (buf : HexBuf) (k : Fin 17) : Word :=
  buf[4 * k.val].setWidth 32 ||| buf[4 * k.val + 1].setWidth 32 <<< 8 |||
    buf[4 * k.val + 2].setWidth 32 <<< 16 ||| buf[4 * k.val + 3].setWidth 32 <<< 24

/-- `HEXBUF.w[k] <- v`: byte j of word k is bits [8(j mod 4)+7 : 8(j mod 4)] (R43, R76). -/
def setHexWord (buf : HexBuf) (k : Fin 17) (v : Word) : HexBuf :=
  Vector.ofFn fun j : Fin 68 =>
    if j.val / 4 = k.val then v.extractLsb' (8 * (j.val % 4)) 8 else buf[j]

/-! ## Value registers by DST -/

/-- `reg[DST]` read (R113). -/
def State.readDst (s : State) (d : Dst) : Value :=
  match d with
  | .r => s.r
  | .a => s.a
  | .b => s.b

/-- `reg[DST] <- v` (R113). -/
def State.writeDst (s : State) (d : Dst) (v : Value) : State :=
  match d with
  | .r => { s with r := v }
  | .a => { s with a := v }
  | .b => { s with b := v }

/-- The operand values as they stand (R303 item 3). -/
def State.sample (s : State) : Operands :=
  { a := s.a, b := s.b, s := s.s, hexlen := s.hexlen, hexbuf := s.hexbuf }

/-! ## The register window -/

/-- What a word offset names (R73). -/
inductive WindowReg
  | /-- A.w[k], offsets 0 to 7 -/ a (k : Fin 8)
  | /-- B.w[k], offsets 8 to 15 -/ b (k : Fin 8)
  | /-- R.w[k], offsets 16 to 23 -/ r (k : Fin 8)
  | /-- S, offset 24 -/ s
  | /-- CMD, offset 25 -/ cmd
  | /-- STATUS, offset 26 -/ status
  | /-- HEXLEN, offset 27 -/ hexlen
  | /-- HEXBUF.w[k], offsets 32 to 48 -/ hexbuf (k : Fin 17)
  | /-- offsets 28 to 31 and 49 to 63 -/ unmapped
  deriving DecidableEq, Repr

/-- The register map (R73). -/
def windowReg (off : BitVec 6) : WindowReg :=
  let n := off.toNat
  if h : n < 8 then .a ⟨n, h⟩
  else if h : n < 16 then .b ⟨n - 8, by omega⟩
  else if h : n < 24 then .r ⟨n - 16, by omega⟩
  else if n = 24 then .s
  else if n = 25 then .cmd
  else if n = 26 then .status
  else if n = 27 then .hexlen
  else if h : 32 ≤ n ∧ n < 49 then .hexbuf ⟨n - 32, by omega⟩
  else .unmapped

end Sys2Proof.Machine
end

