-- ==== Sys2Proof/Machine/Flags.lean ====
section
/-! DEFINITION. STATUS (spec 10_state R38 to R41). The block has no carry, overflow, borrow, zero or sign
flag (R34), so its only computed bits are BUSY, BIT and ERR. -/

namespace Sys2Proof.Machine

/-- The codes of R41. -/
def ErrCode.code : ErrCode → BitVec 4
  | .noError => 0
  | .illegalCmd => 1
  | .shiftRange => 2
  | .hexlenRange => 3

/-- STATUS.BUSY: 1 while a command is in flight (R39; log 7). -/
def State.busy (s : State) : Bool := s.inflight.isSome

/-- STATUS as a read returns it: BUSY [0], BIT [1], 0 [3:2], ERR [7:4], 0 [31:8] (R38). -/
def State.status (s : State) : Word :=
  (BitVec.ofBool s.busy).setWidth 32 ||| (BitVec.ofBool s.bit).setWidth 32 <<< 1 |||
    s.err.code.setWidth 32 <<< 4

/-- The write of STATUS.ERR that every command makes when it completes (R41). -/
def State.setErr (s : State) (e : ErrCode) : State := { s with err := e }

/-- The write of STATUS.BIT that only BTST makes (R40). -/
def State.setBit (s : State) (b : Bool) : State := { s with bit := b }

end Sys2Proof.Machine
end

