-- ==== Sys2Proof/Machine/Ops.lean ====
section
/-! DEFINITION. The named operations: what a command writes when it completes, the two error
mechanisms (spec 60_exceptions R261, R270), the read and write of the register window (20_memory R81),
the hex functions (40_construction R140, R141; 41_formatting R171), and the datapath's adder,
negator, shifter and multiplier (43_arithmetic R211 to R231). -/

namespace Sys2Proof.Machine

/-! ## Completing a command -/

/-- What a command writes at its completing edge (R47). -/
inductive Result
  | /-- reg[DST] <- v and ERR <- 0 -/ value (d : Dst) (v : Value)
  | /-- HEXBUF, HEXLEN and ERR <- 0 (HEXENC) -/ text (buf : HexBuf) (len : BitVec 7)
  | /-- STATUS.BIT and ERR <- 0 (BTST) -/ bit (b : Bool)
  | /-- `raise CmdError(code)`: ERR <- code and nothing else -/ error (e : ErrCode)
  deriving DecidableEq, Repr

/-- `raise CmdError(code)`: STATUS.ERR <- code, nothing else is written (R261). -/
def State.raiseCmdError (s : State) (e : ErrCode) : State := s.setErr e

/-- All of a command's destinations and STATUS.ERR, written together (R305, R47). -/
def State.commit (s : State) (w : Result) : State :=
  match w with
  | .value d v => (s.writeDst d v).setErr .noError
  | .text buf len => { s with hexbuf := buf, hexlen := len }.setErr .noError
  | .bit b => (s.setBit b).setErr .noError
  | .error e => s.raiseCmdError e

/-! ## Completing an access -/

/-- The port's answer in the completing cycle: `rdata` (0 for a write) and `err` = 0 (R71). -/
def State.answer (s : State) (rdata : Word) : State :=
  { s with resp := some { rdata := rdata, err := false } }

/-- `raise BusError`: `err` = 1, `rdata` = 0, no state written (R270). -/
def State.raiseBusError (s : State) : State :=
  { s with resp := some { rdata := 0, err := true } }

/-- The register word at an offset, or none where a read is a bus error (R81 BusRead). -/
def State.busRead (s : State) (off : BitVec 6) : Option Word :=
  match windowReg off with
  | .a k => some (word s.a k)
  | .b k => some (word s.b k)
  | .r k => some (word s.r k)
  | .s => some s.s
  | .cmd => some s.cmd
  | .status => some s.status
  | .hexlen => some (s.hexlen.setWidth 32)
  | .hexbuf k => some (hexWord s.hexbuf k)
  | .unmapped => none

/-- The register write at an offset, without the submission a CMD write also makes; none where a write
is a bus error (R81 BusWrite). -/
def State.busWrite (s : State) (off : BitVec 6) (v : Word) : Option State :=
  match windowReg off with
  | .a k => some { s with a := setWord s.a k v }
  | .b k => some { s with b := setWord s.b k v }
  | .s => some { s with s := v }
  | .cmd => some { s with cmd := v }
  | .hexlen => some { s with hexlen := v.extractLsb' 0 7 }
  | .hexbuf k => some { s with hexbuf := setHexWord s.hexbuf k v }
  | .r _ => none
  | .status => none
  | .unmapped => none

/-! ## Hex digits and strings -/

/-- `nib(c)`: the value of a digit, 0 for an invalid character (R140). The ASCII byte values are the
spec's general-knowledge passage G1 (log 9). -/
def nib (c : Byte) : Nibble :=
  if 0x30 ≤ c.toNat ∧ c.toNat ≤ 0x39 then BitVec.ofNat 4 (c.toNat - 0x30)
  else if 0x61 ≤ c.toNat ∧ c.toNat ≤ 0x66 then BitVec.ofNat 4 (c.toNat - 0x61 + 10)
  else if 0x41 ≤ c.toNat ∧ c.toNat ≤ 0x46 then BitVec.ofNat 4 (c.toNat - 0x41 + 10)
  else 0

/-- The sum of R141 before its reduction: byte j counts `nib(c[j]) · 16^(n-1-j)`. -/
def parseNat : List Byte → Nat
  | [] => 0
  | c :: cs => (nib c).toNat * 16 ^ cs.length + parseNat cs

/-- `Parse(c[0..n-1])` (R141). -/
def parse (cs : List Byte) : Value := BitVec.ofNat 256 (parseNat cs)

/-- The decoder's loop (R143): the character whose position from the end is i is ORed in at nibble i,
and characters at position 64 and above are dropped. -/
def hexDecode : List Byte → Value → Value
  | [], v => v
  | c :: cs, v =>
    hexDecode cs (if cs.length < 64 then v ||| ((nib c).setWidth 256 <<< (4 * cs.length)) else v)

/-- `hexchar(d)`: lowercase (R171). -/
def hexchar (d : Nibble) : Byte :=
  if d.toNat ≤ 9 then BitVec.ofNat 8 (0x30 + d.toNat) else BitVec.ofNat 8 (0x61 + d.toNat - 10)

/-- The most significant non-zero nibble, if the value has one (R171). -/
def topNibble (v : Value) : Option Nat :=
  (List.range 64).reverse.find? fun j => nibble v j ≠ 0

/-- `Fmt(v)`: the minimal lowercase hex string, most significant digit first; "0" for zero (R171). -/
def fmt (v : Value) : List Byte :=
  match topNibble v with
  | none => [0x30]
  | some t => (List.range (t + 1)).reverse.map fun j => hexchar (nibble v j)

/-- A string in the buffer: its characters, then 0x00 in every byte to the end (R170, R172). -/
def fillHexBuf (cs : List Byte) : HexBuf := Vector.ofFn fun k : Fin 68 => cs.getD k.val 0

/-! ## The datapath -/

/-- The ripple of R211: from word 0 upward, a 64-bit sum of two words and the carry in, whose low 32
bits are the result word and whose bit 32 is the carry into the next word. -/
def ripple : List (Word × Word) → Bool → List Word
  | [], _ => []
  | (x, y) :: rest, c =>
    let t : BitVec 64 := x.setWidth 64 + y.setWidth 64 + (BitVec.ofBool c).setWidth 64
    t.extractLsb' 0 32 :: ripple rest (t.getLsbD 32)

/-- `Add256(x, y, cin)`; the carry out of word 7 is discarded (R211). -/
def add256 (x y : Value) (cin : Bool) : Value := ofWords (ripple ((words x).zip (words y)) cin)

/-- The ripple of R215: the complement of each word plus the carry, bit 32 carried on. -/
def negRipple : List Word → Bool → List Word
  | [], _ => []
  | x :: rest, c =>
    let t : BitVec 64 := (~~~x).setWidth 64 + (BitVec.ofBool c).setWidth 64
    t.extractLsb' 0 32 :: negRipple rest (t.getLsbD 32)

/-- `Neg256(x)`: the carry into word 0 is the "+1" (R215). -/
def neg256 (x : Value) : Value := ofWords (negRipple (words x) true)

/-- Word k of `Shl256(x, s)`, with the second term omitted where R224 omits it. -/
def shlWord (x : Value) (s k : Nat) : Word :=
  let ws := s / 32
  let bs := s % 32
  if k < ws then 0
  else
    let hi := word x (k - ws) <<< bs
    let lo := if bs = 0 ∨ k < ws + 1 then 0 else word x (k - ws - 1) >>> (32 - bs)
    hi ||| lo

/-- `Shl256(x, s)` for s in 0..255 (R224). -/
def shl256 (x : Value) (s : Nat) : Value := ofWords ((List.range 8).map (shlWord x s))

/-- The reference multiplier (R230): one shift and one add for each set bit of y. -/
def mulShiftAdd (x y : Value) : Value :=
  (List.range 256).foldl
    (fun acc i => if y.getLsbD i then add256 acc (shl256 x i) false else acc) 0

/-- The radix-4 Booth term of digit i: from bits 2i+1, 2i and 2i-1 of y, one of 0, ±x, ±2x, shifted to
bit 2i (R231 permits the recoding; its digit set is PRESUMED, log 10). -/
def boothTerm (x y : Value) (i : Nat) : Value :=
  match y.getLsbD (2 * i + 1), y.getLsbD (2 * i), (decide (0 < i) && y.getLsbD (2 * i - 1)) with
  | false, false, false => 0
  | false, false, true => shl256 x (2 * i)
  | false, true, false => shl256 x (2 * i)
  | false, true, true => shl256 x (2 * i + 1)
  | true, false, false => neg256 (shl256 x (2 * i + 1))
  | true, false, true => neg256 (shl256 x (2 * i))
  | true, true, false => neg256 (shl256 x (2 * i))
  | true, true, true => 0

/-- The radix-4 Booth multiplier: two bits of y at a step, 128 steps (R231, R310). -/
def mulBooth (x y : Value) : Value :=
  (List.range 128).foldl (fun acc i => add256 acc (boothTerm x y i) false) 0

/-- The multiplier, by the algorithm `MUL_ALG` names (R9, R231). -/
def mul256 (alg : MulAlg) (x y : Value) : Value :=
  match alg with
  | .shiftAndAdd => mulShiftAdd x y
  | .booth => mulBooth x y
  | .other => x * y

end Sys2Proof.Machine
end

