-- ==== Sys2Proof/Machine/Arithmetic.lean ====
section
/-! DEFINITION. ADD, NEG, SUB, SHL and MUL (spec 43_arithmetic). -/

namespace Sys2Proof.Machine

/-- `Add256(A, B, 0)` (R211). -/
def addResult (d : Dst) (o : Operands) : Result := .value d (add256 o.a o.b false)

/-- ADD (R211, R212). -/
def execAdd (d : Dst) (s : State) : Outcome := .next (s.commit (addResult d s.sample))

/-- `Neg256(A)` (R215). -/
def negResult (d : Dst) (o : Operands) : Result := .value d (neg256 o.a)

/-- NEG (R215, R216). -/
def execNeg (d : Dst) (s : State) : Outcome := .next (s.commit (negResult d s.sample))

/-- `Add256(A, Neg256(B), 0)` (R219). -/
def subResult (d : Dst) (o : Operands) : Result := .value d (add256 o.a (neg256 o.b) false)

/-- SUB (R219, R220). -/
def execSub (d : Dst) (s : State) : Outcome := .next (s.commit (subResult d s.sample))

/-- S > 255, as a full 32-bit number, raises SHIFT_RANGE; else `Shl256(A, S)` (R224, R264). -/
def shlResult (d : Dst) (o : Operands) : Result :=
  if o.s.toNat > 255 then .error .shiftRange else .value d (shl256 o.a o.s.toNat)

/-- SHL (R224, R225). -/
def execShl (d : Dst) (s : State) : Outcome := .next (s.commit (shlResult d s.sample))

/-- The product of A and B, by the block's multiplier (R230, R231). -/
def mulResult (alg : MulAlg) (d : Dst) (o : Operands) : Result := .value d (mul256 alg o.a o.b)

/-- MUL (R230, R232). -/
def execMul (d : Dst) (s : State) : Outcome := .next (s.commit (mulResult s.cfg.mulAlg d s.sample))

end Sys2Proof.Machine
end

