-- ==== Sys2Proof/Machine/Construction.lean ====
section
/-! DEFINITION. LDI, HEXDEC and HEXSH (spec 40_construction). For each command: what it writes, computed
from sampled operands, and its meaning, which samples and writes at one edge (70_reset R311; log 11). -/

namespace Sys2Proof.Machine

/-- `reg[DST] <- zext_256(S)` (R145). -/
def ldiResult (d : Dst) (o : Operands) : Result := .value d (o.s.setWidth 256)

/-- LDI (R145, R146). -/
def execLdi (d : Dst) (s : State) : Outcome := .next (s.commit (ldiResult d s.sample))

/-- HEXLEN > 68 raises HEXLEN_RANGE; else bytes 0 to HEXLEN-1 are decoded (R143, R265). -/
def hexdecResult (d : Dst) (o : Operands) : Result :=
  if o.hexlen.toNat > 68 then .error .hexlenRange
  else .value d (hexDecode (o.hexbuf.toList.take o.hexlen.toNat) 0)

/-- HEXDEC (R143, R144). -/
def execHexdec (d : Dst) (s : State) : Outcome := .next (s.commit (hexdecResult d s.sample))

/-- `((A << 4) mod 2^256) | zext_256(nib(S[7:0]))` (R147). -/
def hexshResult (d : Dst) (o : Operands) : Result :=
  .value d ((o.a <<< 4) ||| (nib (o.s.extractLsb' 0 8)).setWidth 256)

/-- HEXSH (R147). -/
def execHexsh (d : Dst) (s : State) : Outcome := .next (s.commit (hexshResult d s.sample))

end Sys2Proof.Machine
end

