-- ==== Sys2Proof/Machine/Formatting.lean ====
section
/-! DEFINITION. HEXENC (spec 41_formatting R170 to R175). -/

namespace Sys2Proof.Machine

/-- HEXBUF <- Fmt(A) and 0x00 to byte 67, HEXLEN <- its length (R170). -/
def hexencResult (o : Operands) : Result :=
  .text (fillHexBuf (fmt o.a)) (BitVec.ofNat 7 (fmt o.a).length)

/-- HEXENC (R170, R173). -/
def execHexenc (s : State) : Outcome := .next (s.commit (hexencResult s.sample))

end Sys2Proof.Machine
end

