-- ==== Sys2Proof/Machine/Inspection.lean ====
section
/-! DEFINITION. BTST (spec 42_inspection R190, R191). -/

namespace Sys2Proof.Machine

/-- BIT <- A.w[S div 32][S mod 32] for S < 256, else 0 (R190). -/
def btstResult (o : Operands) : Result :=
  .bit (if o.s.toNat < 256 then (word o.a (o.s.toNat / 32)).getLsbD (o.s.toNat % 32) else false)

/-- BTST (R190, R191). -/
def execBtst (s : State) : Outcome := .next (s.commit (btstResult s.sample))

end Sys2Proof.Machine
end

