-- ==== Sys2Proof/Machine/Sequencer.lean ====
section
/-! DEFINITION. The command sequencer: submission, acceptance, the in-flight record and completion (spec
30_encoding R110; 70_reset R303 to R306; 10_state R44). -/

namespace Sys2Proof.Machine

/-- What an accepted command writes, from its sampled operands (R110: "An accepted command runs its
rule"). -/
def commandResult (alg : MulAlg) (op : Opcode) (d : Dst) (o : Operands) : Result :=
  match op with
  | .ldi => ldiResult d o
  | .hexdec => hexdecResult d o
  | .hexsh => hexshResult d o
  | .hexenc => hexencResult o
  | .btst => btstResult o
  | .add => addResult d o
  | .neg => negResult d o
  | .sub => subResult d o
  | .shl => shlResult d o
  | .mul => mulResult alg d o

/-- `LAT_op` (R9, R303). -/
def latency (c : Config) (op : Opcode) : Nat :=
  match op with
  | .ldi => c.latLdi
  | .hexdec => c.latHexdec
  | .hexsh => c.latHexsh
  | .hexenc => c.latHexenc
  | .btst => c.latBtst
  | .add => c.latAdd
  | .neg => c.latNeg
  | .sub => c.latSub
  | .shl => c.latShl
  | .mul => c.latMul

/-- Whether a result is a command error: the operand check failed (R267). -/
def Result.isError : Result → Bool
  | .error _ => true
  | .value _ _ => false
  | .text _ _ => false
  | .bit _ => false

/-- `Submit(v)` with the command run as one step (R110; R311): an illegal word raises ILLEGAL_CMD. -/
def State.submit (s : State) (v : Word) : State :=
  match decodeCommand v with
  | .error _ => s.raiseCmdError .illegalCmd
  | .ok (op, d) => s.commit (commandResult s.cfg.mulAlg op d s.sample)

/-- The record of a command that does not complete at its accepting edge: one whose operand check passes
and whose LAT is not 0 (R303 items 2 to 4, R304). None for every other instruction. -/
def State.acceptLater (s : State) (i : Instr) : Option InFlight :=
  match commandOf i with
  | none => none
  | some (op, d) =>
    if latency s.cfg op = 0 ∨ (commandResult s.cfg.mulAlg op d s.sample).isError then none
    else some { op := op, dst := d, ops := s.sample, left := latency s.cfg op }

/-- What the record's command writes when it completes (R305: from the sampled operands). -/
def InFlight.result (f : InFlight) (c : Config) : Result :=
  commandResult c.mulAlg f.op f.dst f.ops

/-- One rising edge for the command in flight: it completes at the edge that leaves it no cycle, and
BUSY becomes 0 there (R303 items 4 and 5). -/
def State.tick (s : State) : State :=
  match s.inflight with
  | none => s
  | some f =>
    if f.left ≤ 1 then { s.commit (f.result s.cfg) with inflight := none }
    else { s with inflight := some { f with left := f.left - 1 } }

/-- `ready`, at an edge with `rst` = 0: 0 while BUSY = 1, except for a read of STATUS (R71, R306). -/
def State.ready (s : State) (p : PortAccess) : Bool :=
  !s.busy || (!p.we && p.addr == statusOffset)

end Sys2Proof.Machine
end

