-- ==== Sys2Proof/Machine/Access.lean ====
section
/-! DEFINITION. The two host accesses (spec 20_memory R81 to R83) and the host's way to the port (R72,
R77, R78; 70_reset R301). -/

namespace Sys2Proof.Machine

/-- `BusRead(off)` as it completes: the register word, or a bus error; no other effect (R80, R81). -/
def execRd (off : BitVec 6) (s : State) : Outcome :=
  match s.busRead off with
  | some v => .next (s.answer v)
  | none => .next s.raiseBusError

/-- `BusWrite(off, v)` as it completes; a CMD write also submits v (R80, R81, R110). -/
def execWr (off : BitVec 6) (v : Word) (s : State) : Outcome :=
  match s.busWrite off v with
  | none => .next s.raiseBusError
  | some t => .next (if off = cmdOffset then (t.answer 0).submit v else t.answer 0)

/-- The access a host access puts on the port: an aligned 32-bit one inside the window, at word offset
(address - CORE_BASE) / 4 (R72, R77, R78; log 6). -/
def toPort (c : Config) (h : HostAccess) : Except Refusal PortAccess :=
  if h.bytes ≠ 4 then .error .accessWidth
  else if h.addr % 4 ≠ 0 then .error .accessMisaligned
  else if h.addr < c.coreBase ∨ c.coreBase + 256 ≤ h.addr then .error .accessOutsideWindow
  else .ok { we := h.we, addr := BitVec.ofNat 6 ((h.addr - c.coreBase) / 4), wdata := h.wdata }

/-- The access at the port, where the model gives it a meaning: after the first reset (R301). -/
def State.present (s : State) (h : HostAccess) : Except Refusal PortAccess :=
  if s.resetSeen then toPort s.cfg h else .error .accessBeforeReset

/-- The host access that puts `p` on the port (R72: `CORE_BASE + 4·off`). -/
def fromPort (c : Config) (p : PortAccess) : HostAccess :=
  { we := p.we, addr := c.coreBase + 4 * p.addr.toNat, bytes := 4, wdata := p.wdata }

/-- What the completing access does before the instruction it stands for runs: a command's word is
stored in CMD and the write is answered (R37, R110). A plain access does both itself. -/
def State.beginAccess (s : State) (i : Instr) : State :=
  match commandOf i with
  | some (op, d) => { s with cmd := encodeCommand op d }.answer 0
  | none => s

/-- An edge at which no access completes: the port gives no answer and the command in flight advances. -/
def State.edgeWithoutAccess (s : State) : State := { s with resp := none }.tick

/-- A rising edge with `rst` = 1: every state element takes its reset value, whatever is in flight or
presented (R300, R302). The parameters and what the host drives later are not state of the block. -/
def State.resetEdge (s : State) : State := { State.resetWith s.cfg with inputs := s.inputs }

end Sys2Proof.Machine
end

