-- ==== Sys2Proof/Machine/Dispatch.lean ====
section
/-! DEFINITION. One arm per instruction: the meaning of each row of spec/opcode_table.json. -/

namespace Sys2Proof.Machine

def exec (i : Instr) (s : State) : Host.Outcome State Fault Refusal :=
  match i with
  | .ldi d => Sys2Proof.Machine.execLdi d s
  | .hexdec d => Sys2Proof.Machine.execHexdec d s
  | .hexsh d => Sys2Proof.Machine.execHexsh d s
  | .hexenc => Sys2Proof.Machine.execHexenc s
  | .btst => Sys2Proof.Machine.execBtst s
  | .add d => Sys2Proof.Machine.execAdd d s
  | .neg d => Sys2Proof.Machine.execNeg d s
  | .sub d => Sys2Proof.Machine.execSub d s
  | .shl d => Sys2Proof.Machine.execShl d s
  | .mul d => Sys2Proof.Machine.execMul d s
  | .rd off => Sys2Proof.Machine.execRd off s
  | .wr off v => Sys2Proof.Machine.execWr off v s

end Sys2Proof.Machine
end

