-- ==== Sys2Proof/Machine/Step.lean ====
section
/-! DEFINITION. One step is one rising edge of `clk` (spec 20_memory R70, R71; 70_reset R300 to R306;
log 1). -/

namespace Sys2Proof.Machine

/-- The completing access's instruction `i`, in the state whose queue no longer holds it: a command of
non-zero latency goes in flight, everything else runs now (R303, R304). -/
def perform (i : Instr) (s : State) : Host.Outcome State Fault Refusal :=
  match (s.beginAccess i).acceptLater i with
  | some f => .next { s.beginAccess i with inflight := some f }
  | none => exec i (s.beginAccess i)

/-- One rising edge. The access at the head of the queue completes or waits; an access that completes
while a command is in flight is a read of STATUS, which sees the state before the edge (R276). -/
def step (s : State) : Host.Outcome State Fault Refusal :=
  match s.inputs with
  | [] => .next s.edgeWithoutAccess
  | .idle :: rest => .next { s with inputs := rest }.edgeWithoutAccess
  | .reset :: rest => .next { s with inputs := rest }.resetEdge
  | .access h :: rest =>
    match s.present h with
    | .error r => .refused r
    | .ok p =>
      if s.ready p then
        match perform (decodePort p) { s with inputs := rest } with
        | .next t => .next (if s.busy then t.tick else t)
        | .fault r => .fault r
        | .refused r => .refused r
      else .next s.edgeWithoutAccess

/-- `s` with a word of the opcode table presented at the port, so that the next step runs it: its access
at the head of the queue, no command in flight that would make it wait, and a reset seen (log 2). -/
def State.withFetchWord (s : State) (nbits w : Nat) : State :=
  { s with
    inputs := .access (fromPort s.cfg (tableAccess nbits w)) :: s.inputs
    inflight := none
    resetSeen := true }

end Sys2Proof.Machine
end

