-- ==== Sys2Proof/Safety.lean ====
section
/-! DEFINITION. What counts as a sound state, and the end of a run and its observation (spec 10_state
R44; 70_reset R305, R312), in the terms claims use. -/

namespace Sys2Proof.Machine

/-- The in-flight record says what it should in state `s`: its operands are the registers' values, since
no access or command changes a register while it is in flight (R305, R306); between 1 and LAT_op
cycles are left (R303); its operand check has passed (R303 item 2); and its DST is one its opcode
admits (R114). -/
def InFlight.Sound (f : InFlight) (s : State) : Prop :=
  f.ops = s.sample ∧ 1 ≤ f.left ∧ f.left ≤ latency s.cfg f.op ∧
    (f.result s.cfg).isError = false ∧ (f.op.writesValue = true ∨ f.dst = .r)

/-- The invariant of the machine: a command in flight is sound. -/
def State.Inv (s : State) : Prop := ∀ f, s.inflight = some f → f.Sound s

/-- "A host program's run is over when its last access has completed and STATUS.BUSY = 0" (R312): no access
is left in the queue and no command is in flight. Idle edges and resets that are still to come are no part
of the run. -/
def State.RunOver (s : State) : Prop := (∀ h, .access h ∉ s.inputs) ∧ s.busy = false

/-- The answers of the accesses that complete in the next `n` edges, in order: the values read and the
`err` flags of R312's observation. -/
def observe : Nat → State → List Response
  | 0, _ => []
  | n + 1, s =>
    match step s with
    | .next t => t.resp.toList ++ observe n t
    | .fault _ => []
    | .refused _ => []

/-- The atomic reading of a program (R311): each access completes at once and its command with it, with
no time. The queue plays no part. -/
def atomicRun : List PortAccess → State → Host.Outcome State Fault Refusal
  | [], s => .next s
  | p :: ps, s =>
    match exec (decodePort p) (s.beginAccess (decodePort p)) with
    | .next t => atomicRun ps t
    | .fault r => .fault r
    | .refused r => .refused r

/-- The answers of the accesses of a program in the atomic reading, in order. -/
def atomicObserve : List PortAccess → State → List Response
  | [], _ => []
  | p :: ps, s =>
    match exec (decodePort p) (s.beginAccess (decodePort p)) with
    | .next t => t.resp.toList ++ atomicObserve ps t
    | .fault _ => []
    | .refused _ => []

/-- A program at the port: its accesses, each presented once the one before it has completed, at the
addresses where a host of this block finds the window (R71, R72). -/
def program (c : Config) (ps : List PortAccess) : List Input :=
  ps.map fun p => .access (fromPort c p)

/-- A read of STATUS, the one access that does not wait (R306). -/
def isStatusRead (p : PortAccess) : Prop := p.we = false ∧ p.addr = statusOffset

/-- Running `i` in `s` completes with `x` in `reg[d]` and ERR = 0, and everything else the machine holds
is as it was: the frame of a command that writes a value register (R47). -/
def CompletesWith (i : Instr) (s : State) (d : Dst) (x : Value) : Prop :=
  ∃ t, exec i s = .next t ∧ t.readDst d = x ∧ t.err = .noError ∧
    (∀ e, e ≠ d → t.readDst e = s.readDst e) ∧
    t.s = s.s ∧ t.cmd = s.cmd ∧ t.bit = s.bit ∧ t.hexlen = s.hexlen ∧ t.hexbuf = s.hexbuf ∧
    t.inflight = s.inflight ∧ t.cfg = s.cfg ∧ t.inputs = s.inputs ∧ t.resp = s.resp ∧
    t.resetSeen = s.resetSeen

/-- The registers of the spec (R30), and nothing of the model's own: what a program leaves behind. -/
structure Registers where
  a : Value
  b : Value
  r : Value
  s : Word
  cmd : Word
  bit : Bool
  err : ErrCode
  hexlen : BitVec 7
  hexbuf : HexBuf
  deriving DecidableEq, Repr

/-- The registers of a state. -/
def State.registers (s : State) : Registers :=
  { a := s.a, b := s.b, r := s.r, s := s.s, cmd := s.cmd, bit := s.bit, err := s.err,
    hexlen := s.hexlen, hexbuf := s.hexbuf }

end Sys2Proof.Machine
end

