-- ==== Sys2Proof/WellFormed.lean ====
section
/-! DEFINITION. Which terms of `Instr` are in canonical form. The types already rule out a reserved DST,
a DST on HEXENC or BTST, and an offset of more than 6 bits. What is left: a CMD write of a legal word
is spelled as its command, never as a plain `wr` (spec 30_encoding R119; log 13). -/

namespace Sys2Proof

/-- The check. Every `rd` and every command is well formed; a `wr` is unless it spells a command. -/
def wellFormed (i : Instr) : Bool :=
  match i with
  | .wr off v => !(off == cmdOffset && legal v)
  | .rd _ => true
  | .ldi _ => true
  | .hexdec _ => true
  | .hexsh _ => true
  | .hexenc => true
  | .btst => true
  | .add _ => true
  | .neg _ => true
  | .sub _ => true
  | .shl _ => true
  | .mul _ => true

end Sys2Proof
end

