-- ==== Sys2Proof/Certificates/Slice0/Obligations.lean ====
section
/-! DEFINITION. The statements for the provers. Each docstring names the rule of spec/ it formalises;
where a clause is the model's own choice, the docstring names the log entry. -/

open Sys2Proof Sys2Proof.Machine

/-! ## Encoding -/

/-- The 26 words of R121, in its order, each with the instruction R121 gives it. -/
def Sys2Proof.Machine.commandTable : List (Word × Instr) :=
  [(0x01, .ldi .r), (0x11, .ldi .a), (0x21, .ldi .b),
   (0x02, .hexdec .r), (0x12, .hexdec .a), (0x22, .hexdec .b),
   (0x03, .hexsh .r), (0x13, .hexsh .a), (0x23, .hexsh .b),
   (0x04, .hexenc), (0x05, .btst)] ++
  [(0x06, .add .r), (0x16, .add .a), (0x26, .add .b),
   (0x07, .neg .r), (0x17, .neg .a), (0x27, .neg .b),
   (0x08, .sub .r), (0x18, .sub .a), (0x28, .sub .b),
   (0x09, .shl .r), (0x19, .shl .a), (0x29, .shl .b),
   (0x0A, .mul .r), (0x1A, .mul .a), (0x2A, .mul .b)]

/-- R110 to R113, R119: no bit of an encoding is dropped. The canonical form is the model's (log 13). -/
def Obligations.DecodeOfEncodeIsTheInstruction : Prop :=
  ∀ i : Instr, wellFormed i = true → decodePort (encode i) = i

/-- R110 to R119: every access the port can carry is the encoding of one well-formed instruction; a read
carries no data. -/
def Obligations.EncodeOfDecodeIsTheAccess : Prop :=
  ∀ p : PortAccess, wellFormed (decodePort p) = true ∧
    encode (decodePort p) = { p with wdata := if p.we then p.wdata else 0 }

/-- R115: the legality predicate on the number a word is, and that exactly 26 words meet it. -/
def Obligations.ExactlyTheListedWordsAreLegal : Prop :=
  (commandTable.map Prod.fst).Nodup ∧ (commandTable.map Prod.fst).length = 26 ∧
  ∀ v : Word,
    (legal v = true ↔
      v.toNat / 64 = 0 ∧ (1 ≤ v.toNat % 16 ∧ v.toNat % 16 ≤ 0xA) ∧ v.toNat / 16 % 4 ≠ 3 ∧
        ((v.toNat % 16 = 4 ∨ v.toNat % 16 = 5) → v.toNat / 16 % 4 = 0)) ∧
    (legal v = true ↔ v ∈ commandTable.map Prod.fst)

/-- R121: each of the 26 words, written to CMD, is the command R121 lists for it. -/
def Obligations.ListedCommandWordsDecode : Prop :=
  ∀ row ∈ commandTable, decodePort { we := true, addr := 25, wdata := row.1 } = row.2

/-- R110, R119: a command statement means the CMD write of its word, which stores the word in CMD. -/
def Obligations.CmdWriteOfALegalWordIsItsCommand : Prop :=
  ∀ (s : State) (op : Opcode) (d : Dst), (op.writesValue = true ∨ d = .r) →
    exec (.wr cmdOffset (encodeCommand op d)) s =
      exec (instrOf op d) { s with cmd := encodeCommand op d, resp := some ⟨0, false⟩ }

/-- R263: a word that fails Legal raises ILLEGAL_CMD (1), records nothing but the code, and stays in CMD. -/
def Obligations.IllegalWordOnlySetsErrAndCmd : Prop :=
  ErrCode.illegalCmd.code = 1 ∧ ∀ (s : State) (v : Word),
    (v.toNat / 64 ≠ 0 ∨ v.toNat % 16 ∈ [0x0, 0xB, 0xC, 0xD, 0xE, 0xF] ∨ v.toNat / 16 % 4 = 3 ∨
      (v.toNat % 16 ∈ [0x4, 0x5] ∧ v.toNat / 16 % 4 ≠ 0)) →
    exec (.wr cmdOffset v) s =
      .next { s with cmd := v, err := .illegalCmd, resp := some ⟨0, false⟩ }

/-! ## One edge -/

/-- R71, R303: when the port is free, the access at the head of the queue completes and the instruction
it decodes to runs: at once, or, where the sequencer keeps a record of it, later. -/
def Obligations.StepRunsTheDecodedInstruction : Prop :=
  ∀ (s : State) (h : HostAccess) (rest : List Input) (p : PortAccess),
    s.inputs = .access h :: rest → s.present h = .ok p → s.busy = false →
    step s =
      match (({ s with inputs := rest }).beginAccess (decodePort p)).acceptLater (decodePort p) with
      | none => exec (decodePort p) (({ s with inputs := rest }).beginAccess (decodePort p))
      | some f =>
        .next { ({ s with inputs := rest }).beginAccess (decodePort p) with inflight := some f }

/-- R304: a command of latency 0 completes at its accepting edge; BUSY is never 1 for it. -/
def Obligations.LatencyZeroCompletesAtTheAcceptingEdge : Prop :=
  ∀ (s : State) (h : HostAccess) (rest : List Input) (p : PortAccess) (op : Opcode) (d : Dst),
    s.inputs = .access h :: rest → s.present h = .ok p → s.busy = false →
    commandOf (decodePort p) = some (op, d) → latency s.cfg op = 0 →
    ∃ t, step s = .next t ∧ t.busy = false ∧
      exec (decodePort p)
        { s with inputs := rest, cmd := p.wdata, resp := some ⟨0, false⟩ } = .next t

/-- R261: a command that raises an error completes at the edge at which it is submitted, whatever its
latency, and writes ERR alone. -/
def Obligations.RejectedCommandCompletesAtItsEdge : Prop :=
  ∀ (s : State) (h : HostAccess) (rest : List Input) (p : PortAccess) (e : ErrCode),
    s.inputs = .access h :: rest → s.present h = .ok p → s.busy = false →
    p.we = true → p.addr = cmdOffset →
    ((legal p.wdata = false ∧ e = .illegalCmd) ∨
     ((∃ d, decodePort p = .shl d) ∧ s.s.toNat > 255 ∧ e = .shiftRange) ∨
     ((∃ d, decodePort p = .hexdec d) ∧ s.hexlen.toNat > 68 ∧ e = .hexlenRange)) →
    step s =
      .next { s with inputs := rest, cmd := p.wdata, resp := some ⟨0, false⟩, err := e }

/-- R303, R39: a command whose checks pass and whose latency is not 0 is accepted: its operands are
sampled as they stand, LAT_op cycles are left, BUSY is 1, and no register but CMD changes. -/
def Obligations.AcceptedCommandGoesInFlight : Prop :=
  ∀ (s : State) (h : HostAccess) (rest : List Input) (p : PortAccess) (op : Opcode) (d : Dst),
    s.inputs = .access h :: rest → s.present h = .ok p → s.busy = false →
    commandOf (decodePort p) = some (op, d) → latency s.cfg op ≠ 0 →
    (op = .shl → s.s.toNat ≤ 255) → (op = .hexdec → s.hexlen.toNat ≤ 68) →
    step s =
      .next { s with
        inputs := rest, cmd := p.wdata, resp := some ⟨0, false⟩
        inflight := some
          { op := op, dst := d
            ops := { a := s.a, b := s.b, s := s.s, hexlen := s.hexlen, hexbuf := s.hexbuf }
            left := latency s.cfg op } }

/-- R303 items 4 to 6, R305, R311: with k + 1 cycles left, whatever is presented at the next k + 1 edges as
long as none is a reset and the port can carry each access, the command stays in flight and no register
changes for k edges, and at edge k + 1 it writes its results and BUSY becomes 0. The last clause gives the
whole state where nothing is presented. -/
def Obligations.CommandCompletesAfterItsCycles : Prop :=
  ∀ (s : State) (f : InFlight) (k : Nat),
    s.inflight = some f → f.left = k + 1 →
    (∀ i ∈ s.inputs.take (k + 1), i ≠ .reset ∧ ∀ h, i = .access h → ∃ p, s.present h = .ok p) →
    (∀ j, j ≤ k → ∃ t, Host.Core.run core j s = .next t ∧
      t.inflight = some { f with left := k + 1 - j } ∧ t.registers = s.registers) ∧
    (∃ t, Host.Core.run core (k + 1) s = .next t ∧ t.inflight = none ∧
      t.registers = (s.commit (f.result s.cfg)).registers) ∧
    (s.inputs = [] → Host.Core.run core (k + 1) s =
      .next { s.commit (f.result s.cfg) with inflight := none, resp := none })

/-- R306: while BUSY = 1 every access but a STATUS read waits; a STATUS read completes at once with
STATUS as it stands before the edge; either way the command in flight advances by one cycle; once BUSY is
0 the waiting access completes at the next edge, in the state the command left. -/
def Obligations.WaitRule : Prop :=
  ∀ (s : State) (f : InFlight) (h : HostAccess) (rest : List Input) (p : PortAccess),
    s.inflight = some f → s.inputs = .access h :: rest → s.present h = .ok p →
    (¬ isStatusRead p → ∃ t, step s = .next t ∧ t.inputs = s.inputs ∧ t.resp = none ∧
      (2 ≤ f.left → t.busy = true ∧ t.inflight = some { f with left := f.left - 1 } ∧
        t.registers = s.registers) ∧
      (f.left = 1 → t.busy = false ∧ t.registers = (s.commit (f.result s.cfg)).registers ∧
        step t = perform (decodePort p) { t with inputs := rest })) ∧
    (isStatusRead p → ∃ t, step s = .next t ∧ t.inputs = rest ∧
      t.resp = some ⟨s.status, false⟩ ∧ s.status.getLsbD 0 = true ∧
      (2 ≤ f.left → t.busy = true ∧ t.inflight = some { f with left := f.left - 1 } ∧
        t.registers = s.registers) ∧
      (f.left = 1 → t.busy = false ∧ t.registers = (s.commit (f.result s.cfg)).registers))

/-- R300: a rising edge with rst = 1 gives every state element its reset value, whatever is in flight or
presented later. -/
def Obligations.ResetEdgeGivesTheResetValues : Prop :=
  ∀ (s : State) (rest : List Input), s.inputs = .reset :: rest →
    ∃ t, step s = .next t ∧ t.a = 0 ∧ t.b = 0 ∧ t.r = 0 ∧ t.s = 0 ∧ t.cmd = 0 ∧ t.status = 0 ∧
      t.hexlen = 0 ∧ (∀ k : Fin 68, t.hexbuf[k] = 0) ∧ t.inflight = none

/-- R45: the values after reset. -/
def Obligations.ResetStateHoldsTheResetValues : Prop :=
  (∀ k, k < 8 → word State.reset.a k = 0 ∧ word State.reset.b k = 0 ∧ word State.reset.r k = 0) ∧
  State.reset.s = 0 ∧ State.reset.cmd = 0 ∧ State.reset.status = 0 ∧ State.reset.busy = false ∧
  State.reset.bit = false ∧ State.reset.err = .noError ∧ State.reset.hexlen = 0 ∧
  (∀ k : Fin 68, State.reset.hexbuf[k] = 0) ∧ State.reset.inflight = none

/-- R46, R301, R302: an access before the first edge with rst = 1 is refused; that edge ends the time in
which it is, completes no access and keeps the parameters. `resetSeen`, `resp` and `cfg` are the model's
fields (logs 3 to 5). -/
def Obligations.AccessBeforeResetIsRefused : Prop :=
  ∀ (s : State) (rest : List Input),
    (∀ h, s.resetSeen = false → s.inputs = .access h :: rest →
      step s = .refused .accessBeforeReset) ∧
    (s.inputs = .reset :: rest → ∃ t, step s = .next t ∧ t.resetSeen = true ∧
      t.inputs = rest ∧ t.resp = none ∧ t.cfg = s.cfg)

/-- R77, R78: a narrower, wider or misaligned host access is refused. -/
def Obligations.NonWordAccessIsRefused : Prop :=
  ∀ (s : State) (h : HostAccess) (rest : List Input),
    s.inputs = .access h :: rest → s.resetSeen = true →
    (h.bytes ≠ 4 → step s = .refused .accessWidth) ∧
    (h.bytes = 4 → h.addr % 4 ≠ 0 → step s = .refused .accessMisaligned)

/-- R72, R78: after reset, the host accesses that reach the port are exactly the 4-byte accesses at
CORE_BASE + 4·off, and they reach it at word offset off. -/
def Obligations.WindowAddressesReachTheirOffsets : Prop :=
  ∀ (s : State) (h : HostAccess) (p : PortAccess), s.resetSeen = true →
    (s.present h = .ok p ↔
      h = { we := p.we, addr := s.cfg.coreBase + 4 * p.addr.toNat, bytes := 4, wdata := p.wdata })

/-- R77, R78, R301 and log 6: a step is refused only for a host access before reset, of a wrong width,
misaligned or outside the window; a step never faults (R260). -/
def Obligations.StepStopsOnlyAtThePort : Prop :=
  ∀ s : State, (∃ t, step s = .next t) ∨
    ∃ h rest, s.inputs = .access h :: rest ∧
      (s.resetSeen = false ∨ h.bytes ≠ 4 ∨ h.addr % 4 ≠ 0 ∨
        h.addr < s.cfg.coreBase ∨ s.cfg.coreBase + 256 ≤ h.addr)

/-- R260: "Neither kind of error stops the block." Every instruction answers a next state, in every state
and for all operands. -/
def Obligations.EveryInstructionAnswersANextState : Prop :=
  ∀ (i : Instr) (s : State), ∃ t, exec i s = .next t

/-! ## Host accesses -/

/-- R81 BusRead, R80, R82: what a read of each mapped offset returns, and that it does nothing else. -/
def Obligations.ReadReturnsTheRegisterWord : Prop :=
  ∀ s : State,
    (∀ k, k < 8 →
      exec (.rd (BitVec.ofNat 6 k)) s =
        .next { s with resp := some ⟨s.a.extractLsb' (32 * k) 32, false⟩ } ∧
      exec (.rd (BitVec.ofNat 6 (8 + k))) s =
        .next { s with resp := some ⟨s.b.extractLsb' (32 * k) 32, false⟩ } ∧
      exec (.rd (BitVec.ofNat 6 (16 + k))) s =
        .next { s with resp := some ⟨s.r.extractLsb' (32 * k) 32, false⟩ }) ∧
    exec (.rd 24) s = .next { s with resp := some ⟨s.s, false⟩ } ∧
    exec (.rd 25) s = .next { s with resp := some ⟨s.cmd, false⟩ } ∧
    exec (.rd 26) s = .next { s with resp := some ⟨s.status, false⟩ } ∧
    exec (.rd 27) s = .next { s with resp := some ⟨s.hexlen.setWidth 32, false⟩ } ∧
    (∀ k : Fin 17, ∃ w : Word,
      exec (.rd (BitVec.ofNat 6 (32 + k.val))) s = .next { s with resp := some ⟨w, false⟩ } ∧
      ∀ j : Fin 4, w.extractLsb' (8 * j.val) 8 = s.hexbuf[4 * k.val + j.val]'(by omega))

/-- R270, R271: exactly these accesses are bus errors; they answer err = 1 and rdata = 0 and change
nothing, and every other access completes without error. -/
def Obligations.BusErrorsAreExactlyThese : Prop :=
  ∀ (s : State) (off : BitVec 6) (v : Word),
    (if (28 ≤ off.toNat ∧ off.toNat ≤ 31) ∨ 49 ≤ off.toNat then
      exec (.rd off) s = .next { s with resp := some ⟨0, true⟩ }
    else ∃ w, exec (.rd off) s = .next { s with resp := some ⟨w, false⟩ }) ∧
    (if (28 ≤ off.toNat ∧ off.toNat ≤ 31) ∨ 49 ≤ off.toNat ∨
        (16 ≤ off.toNat ∧ off.toNat ≤ 23) ∨ off.toNat = 26 then
      exec (.wr off v) s = .next { s with resp := some ⟨0, true⟩ }
    else ∃ t, exec (.wr off v) s = .next t ∧ t.resp = some ⟨0, false⟩)

/-- R32, R33, R42, R80: a write of a word of A or B changes that word only; S and HEXLEN take their data,
HEXLEN its low 7 bits; nothing else changes. -/
def Obligations.WriteChangesOneRegisterWord : Prop :=
  ∀ (s : State) (v : Word),
    (∀ k, k < 8 → ∃ t, exec (.wr (BitVec.ofNat 6 k) v) s = .next t ∧
      word t.a k = v ∧ (∀ j, j < 8 → j ≠ k → word t.a j = word s.a j) ∧
      t.resp = some ⟨0, false⟩ ∧ { t with a := s.a, resp := s.resp } = s) ∧
    (∀ k, k < 8 → ∃ t, exec (.wr (BitVec.ofNat 6 (8 + k)) v) s = .next t ∧
      word t.b k = v ∧ (∀ j, j < 8 → j ≠ k → word t.b j = word s.b j) ∧
      t.resp = some ⟨0, false⟩ ∧ { t with b := s.b, resp := s.resp } = s) ∧
    exec (.wr 24 v) s = .next { s with s := v, resp := some ⟨0, false⟩ } ∧
    exec (.wr 27 v) s =
      .next { s with hexlen := BitVec.ofNat 7 (v.toNat % 128), resp := some ⟨0, false⟩ }

/-- R43, R76: a write of HEXBUF word k sets bytes 4k to 4k+3, byte j from bits [8(j mod 4)+7 : 8(j mod 4)],
and nothing else; "1A2g" is the word 0x67324131. -/
def Obligations.HexbufWriteSetsItsFourBytes : Prop :=
  (∀ (s : State) (k : Fin 17) (v : Word), ∃ t,
    exec (.wr (BitVec.ofNat 6 (32 + k.val)) v) s = .next t ∧
    (∀ j : Fin 68, t.hexbuf[j] =
      if j.val / 4 = k.val then v.extractLsb' (8 * (j.val % 4)) 8 else s.hexbuf[j]) ∧
    t.resp = some ⟨0, false⟩ ∧ { t with hexbuf := s.hexbuf, resp := s.resp } = s) ∧
  (∀ s : State, ∃ t, exec (.wr 32 0x67324131) s = .next t ∧
    t.hexbuf[0] = 0x31 ∧ t.hexbuf[1] = 0x41 ∧ t.hexbuf[2] = 0x32 ∧ t.hexbuf[3] = 0x67)

/-- R37: CMD holds the last word written to it, its reserved bits included, legal or not, and a read
returns it. -/
def Obligations.CmdReadsBackTheWordWritten : Prop :=
  ∀ (s : State) (v : Word), ∃ t u, exec (.wr 25 v) s = .next t ∧ exec (.rd 25) t = .next u ∧
    u.resp = some ⟨v, false⟩

/-- R32, R79, R80: a write to any offset but CMD leaves what every other offset reads, mapped or not. -/
def Obligations.WriteLeavesEveryOtherOffset : Prop :=
  ∀ (s : State) (off other : BitVec 6) (v : Word), off ≠ cmdOffset → other ≠ off →
    ∃ t, exec (.wr off v) s = .next t ∧ t.busRead other = s.busRead other

/-- R83: eight writes of words 0 to 7 of A (or B), in any order, leave Σ word[k]·2^(32k) there, and every
other register as it was. -/
def Obligations.EightWordWritesBuildTheValue : Prop :=
  ∀ (s : State) (w : Fin 8 → Word) (order : List (Fin 8)), order.Perm (List.finRange 8) →
    (∃ t, atomicRun (order.map fun k => ⟨true, BitVec.ofNat 6 k.val, w k⟩) s = .next t ∧
      t.a.toNat = ∑ k : Fin 8, (w k).toNat * 2 ^ (32 * k.val) ∧
      { t with a := s.a, resp := s.resp } = s) ∧
    (∃ t, atomicRun (order.map fun k => ⟨true, BitVec.ofNat 6 (8 + k.val), w k⟩) s = .next t ∧
      t.b.toNat = ∑ k : Fin 8, (w k).toNat * 2 ^ (32 * k.val) ∧
      { t with b := s.b, resp := s.resp } = s)

/-! ## Construction -/

/-- R145, R33: LDI gives reg[DST] the 32-bit value of S, words 1 to 7 zero. -/
def Obligations.LdiLoadsS : Prop :=
  ∀ (s : State) (d : Dst), ∃ x : Value, CompletesWith (.ldi d) s d x ∧ word x 0 = s.s ∧
    ∀ k, 1 ≤ k → k < 8 → word x k = 0

/-- R140: the value of each digit, and 0 for every other byte. -/
def Obligations.NibGivesTheDigitsValue : Prop :=
  ∀ c : Byte,
    (0x30 ≤ c.toNat → c.toNat ≤ 0x39 → (nib c).toNat + 0x30 = c.toNat) ∧
    (0x61 ≤ c.toNat → c.toNat ≤ 0x66 → (nib c).toNat + 0x61 = c.toNat + 10) ∧
    (0x41 ≤ c.toNat → c.toNat ≤ 0x46 → (nib c).toNat + 0x41 = c.toNat + 10) ∧
    (c.toNat < 0x30 ∨ (0x39 < c.toNat ∧ c.toNat < 0x41) ∨ (0x46 < c.toNat ∧ c.toNat < 0x61) ∨
      0x66 < c.toNat → nib c = 0)

/-- R143, R265: HEXDEC gives reg[DST] Parse of the first HEXLEN bytes of HEXBUF, or raises HEXLEN_RANGE
(3) and writes nothing else. -/
def Obligations.HexdecParsesTheBuffer : Prop :=
  ErrCode.hexlenRange.code = 3 ∧ ∀ (s : State) (d : Dst),
    (s.hexlen.toNat ≤ 68 →
      CompletesWith (.hexdec d) s d (parse (s.hexbuf.toList.take s.hexlen.toNat))) ∧
    (68 < s.hexlen.toNat → exec (.hexdec d) s = .next { s with err := .hexlenRange })

/-- R144: the result of HEXDEC depends only on HEXLEN and the bytes below it: two states that agree on
these get the same value, whatever else they hold. -/
def Obligations.HexdecReadsOnlyItsBytes : Prop :=
  ∀ (s s' : State) (d : Dst), s.hexlen = s'.hexlen → s.hexlen.toNat ≤ 68 →
    (∀ k : Fin 68, k.val < s.hexlen.toNat → s.hexbuf[k] = s'.hexbuf[k]) →
    ∃ t t', exec (.hexdec d) s = .next t ∧ exec (.hexdec d) s' = .next t' ∧
      t.readDst d = t'.readDst d ∧ t.err = t'.err

/-- R147: HEXSH gives reg[DST] the value 16·A + nib(S[7:0]) mod 2^256. -/
def Obligations.HexshShiftsInOneDigit : Prop :=
  ∀ (s : State) (d : Dst),
    CompletesWith (.hexsh d) s d
      (BitVec.ofNat 256 (16 * s.a.toNat + (nib (s.s.extractLsb' 0 8)).toNat))

/-- R148, R120: `hexstream` of any string, of any length, leaves Parse of it in A. -/
def Obligations.StreamingAStringParsesIt : Prop :=
  ∀ (s : State) (cs : List Byte), ∃ t,
    atomicRun
      ([⟨true, 24, 0⟩, ⟨true, 25, 0x11⟩] ++
        cs.flatMap fun c => [⟨true, 24, c.setWidth 32⟩, ⟨true, 25, 0x13⟩]) s = .next t ∧
    t.a = parse cs

/-- R141: byte j of n counts nib(c[j]) · 16^(n-1-j), valid or not, mod 2^256; and only the last 64
characters contribute. -/
def Obligations.ParseIsThePositionalSum : Prop :=
  ∀ cs : List Byte,
    (parse cs).toNat = (∑ j : Fin cs.length, (nib cs[j]).toNat * 16 ^ (cs.length - 1 - j.val)) % 2 ^ 256 ∧
    parse cs = parse (cs.drop (cs.length - 64))

/-! ## Formatting and inspection -/

/-- R170, R172: HEXENC writes the n characters of Fmt(A), then 0x00 to byte 67, and HEXLEN = n, with n
from 1 to 64; it writes no value register and leaves BIT. -/
def Obligations.HexencWritesTheString : Prop :=
  ∀ s : State, ∃ t, exec .hexenc s = .next t ∧
    1 ≤ (fmt s.a).length ∧ (fmt s.a).length ≤ 64 ∧ t.hexlen.toNat = (fmt s.a).length ∧
    (∀ k : Fin 68, t.hexbuf[k] = (fmt s.a).getD k.val 0) ∧ t.err = .noError ∧
    { t with hexbuf := s.hexbuf, hexlen := s.hexlen, err := s.err } = s

/-- R171, R173: Fmt is minimal, lowercase and positional: "0" for zero, no leading zero otherwise, only
lowercase digits, and the number its digits write is the value. -/
def Obligations.FmtIsTheMinimalLowercaseNumeral : Prop :=
  ∀ v : Value,
    (v = 0 → fmt v = [0x30]) ∧
    (v ≠ 0 → ∃ c cs, fmt v = c :: cs ∧ c ≠ 0x30) ∧
    (∀ c ∈ fmt v, (0x30 ≤ c.toNat ∧ c.toNat ≤ 0x39) ∨ (0x61 ≤ c.toNat ∧ c.toNat ≤ 0x66)) ∧
    parseNat (fmt v) = v.toNat

/-- R174: Parse undoes Fmt; `hexenc` then `hexdec.a` leaves A unchanged, and a further `hexenc` leaves the
buffer and HEXLEN as the first left them; and any string, canonical or not, comes back from `hexdec.a` and
`hexenc` as the canonical form of its Parse value. -/
def Obligations.HexRoundTrip : Prop :=
  (∀ v : Value, parse (fmt v) = v) ∧
  (∀ s : State, ∃ t u v, exec .hexenc s = .next t ∧ exec (.hexdec .a) t = .next u ∧
    exec .hexenc u = .next v ∧ u.a = s.a ∧ u.err = .noError ∧
    v.hexbuf = t.hexbuf ∧ v.hexlen = t.hexlen) ∧
  (∀ s : State, s.hexlen.toNat ≤ 68 → ∃ t u, exec (.hexdec .a) s = .next t ∧
    exec .hexenc t = .next u ∧
    u.hexbuf.toList.take u.hexlen.toNat = fmt (parse (s.hexbuf.toList.take s.hexlen.toNat)))

/-- R190, R191: BTST gives BIT the bit A[S], 0 for S of 256 and above, with ERR = 0, and writes nothing
else. -/
def Obligations.BtstTestsTheBit : Prop :=
  ∀ s : State, ∃ t, exec .btst s = .next t ∧
    t.bit = (if s.s.toNat < 256 then s.a.getLsbD s.s.toNat else false) ∧ t.err = .noError ∧
    { t with bit := s.bit, err := s.err } = s

/-! ## Arithmetic -/

/-- R213: the word-by-word adder of R211 gives (x + y + cin) mod 2^256 and is commutative, so ADD gives
(A + B) mod 2^256. -/
def Obligations.AddGivesTheSum : Prop :=
  (∀ (x y : Value) (c : Bool), (add256 x y c).toNat = (x.toNat + y.toNat + c.toNat) % 2 ^ 256 ∧
    add256 x y c = add256 y x c) ∧
  ∀ (s : State) (d : Dst),
    CompletesWith (.add d) s d (BitVec.ofNat 256 (s.a.toNat + s.b.toNat))

/-- R217: the negator of R215 gives (2^256 - x) mod 2^256, the sum of ~x and a carry in, and the additive
inverse of x; so NEG gives (2^256 - A) mod 2^256. -/
def Obligations.NegGivesTheComplement : Prop :=
  (∀ x : Value, (neg256 x).toNat = (2 ^ 256 - x.toNat) % 2 ^ 256 ∧
    neg256 x = add256 (~~~x) 0 true ∧ add256 x (neg256 x) false = 0) ∧
  ∀ (s : State) (d : Dst), CompletesWith (.neg d) s d (BitVec.ofNat 256 (2 ^ 256 - s.a.toNat))

/-- R221: SUB gives (A + 2^256 - B) mod 2^256; subtracting undoes adding; and one adder pass over ~y with
a carry in gives the same value. -/
def Obligations.SubGivesTheDifference : Prop :=
  (∀ x y : Value, add256 (add256 x y false) (neg256 y) false = x ∧
    add256 x (neg256 y) false = add256 x (~~~y) true) ∧
  ∀ (s : State) (d : Dst),
    CompletesWith (.sub d) s d (BitVec.ofNat 256 (s.a.toNat + 2 ^ 256 - s.b.toNat))

/-- R226, R264: SHL gives (A · 2^S) mod 2^256 for S in 0..255, bit i being A[i - S] for i >= S and
0 below; for S of 256 and above it raises SHIFT_RANGE (2) and writes nothing else, S included. -/
def Obligations.ShlGivesTheShift : Prop :=
  ErrCode.shiftRange.code = 2 ∧ ∀ (s : State) (d : Dst),
    (s.s.toNat ≤ 255 → ∃ x : Value, CompletesWith (.shl d) s d x ∧
      x.toNat = s.a.toNat * 2 ^ s.s.toNat % 2 ^ 256 ∧
      ∀ i, i < 256 → x.getLsbD i = (decide (s.s.toNat ≤ i) && s.a.getLsbD (i - s.s.toNat))) ∧
    (255 < s.s.toNat → exec (.shl d) s = .next { s with err := .shiftRange })

/-- R230, R231: the shift-and-add multiplier gives (x · y) mod 2^256 and is commutative; MUL gives
(A · B) mod 2^256, whatever MUL_ALG is. -/
def Obligations.MulGivesTheProduct : Prop :=
  (∀ x y : Value, (mulShiftAdd x y).toNat = x.toNat * y.toNat % 2 ^ 256 ∧
    mulShiftAdd x y = mulShiftAdd y x) ∧
  ∀ (s : State) (d : Dst),
    CompletesWith (.mul d) s d (BitVec.ofNat 256 (s.a.toNat * s.b.toNat))

/-- R231: shift-and-add, radix-4 Booth recoding and any other permitted method agree bit for bit. The
Booth digit set, and the product for the other methods, are the model's (log 10). -/
def Obligations.MultiplierAlgorithmsAgree : Prop :=
  ∀ (x y : Value), mul256 .booth x y = mul256 .shiftAndAdd x y ∧
    mul256 .other x y = mul256 .shiftAndAdd x y

/-- R217 (W1): for every A, `neg.b` and then `add.r` give 0. -/
def Obligations.AddOfTheNegationIsZero : Prop :=
  ∀ s : State, ∃ t u, exec (.neg .b) s = .next t ∧ exec (.add .r) t = .next u ∧ u.r = 0

/-- R221 (W2): for every A and B, `add.a` and then `sub.a` give A back. -/
def Obligations.SubUndoesAdd : Prop :=
  ∀ s : State, ∃ t u, exec (.add .a) s = .next t ∧ exec (.sub .a) t = .next u ∧ u.a = s.a

/-! ## Rules of the whole machine -/

/-- R266: SHL raises SHIFT_RANGE exactly for S > 255, HEXDEC raises HEXLEN_RANGE exactly for HEXLEN > 68,
and every other command completes with ERR = 0. -/
def Obligations.CommandErrorsAreExactlyThese : Prop :=
  ∀ (s : State) (i : Instr) (op : Opcode) (d : Dst), commandOf i = some (op, d) →
    ∃ t, exec i s = .next t ∧ t.err =
      if op = .shl ∧ 255 < s.s.toNat then .shiftRange
      else if op = .hexdec ∧ 68 < s.hexlen.toNat then .hexlenRange
      else .noError

/-- R47: no command writes outside its write set, and on an error it writes ERR alone. -/
def Obligations.CommandsKeepToTheirWriteSet : Prop :=
  ∀ (s : State) (i : Instr) (op : Opcode) (d : Dst), commandOf i = some (op, d) →
    ∃ t, exec i s = .next t ∧
      t.s = s.s ∧ t.cmd = s.cmd ∧ t.inflight = s.inflight ∧ t.cfg = s.cfg ∧
      t.inputs = s.inputs ∧ t.resp = s.resp ∧ t.resetSeen = s.resetSeen ∧
      (op ≠ .hexenc → t.hexbuf = s.hexbuf ∧ t.hexlen = s.hexlen) ∧
      (op ≠ .btst → t.bit = s.bit) ∧
      (∀ e, (e ≠ d ∨ op.writesValue = false) → t.readDst e = s.readDst e) ∧
      (t.err ≠ .noError → { t with err := s.err } = s)

/-- R38, R41: a read of STATUS returns BUSY at [0], BIT at [1], ERR's code at [7:4], and 0 at [3:2] and
[31:8]; a write of it is a bus error. -/
def Obligations.StatusReadHasItsLayout : Prop :=
  ∀ s : State, ∃ w : Word, exec (.rd 26) s = .next { s with resp := some ⟨w, false⟩ } ∧
    w.getLsbD 0 = s.inflight.isSome ∧ w.getLsbD 1 = s.bit ∧ w.extractLsb' 2 2 = 0 ∧
    (w.extractLsb' 4 4).toNat =
      (match s.err with
        | .noError => 0
        | .illegalCmd => 1
        | .shiftRange => 2
        | .hexlenRange => 3) ∧
    w.extractLsb' 8 24 = 0 ∧
    ∀ v : Word, exec (.wr 26 v) s = .next { s with resp := some ⟨0, true⟩ }

/-- R40: BIT changes at an edge only by reset or by BTST completing there: one in flight at its last cycle,
or one of latency 0 whose CMD write completes while nothing is in flight. -/
def Obligations.BitChangesOnlyByBtst : Prop :=
  ∀ s t : State, step s = .next t → t.bit ≠ s.bit →
    (∃ rest, s.inputs = .reset :: rest) ∨
    (∃ f, s.inflight = some f ∧ f.op = .btst ∧ f.left ≤ 1) ∨
    (s.busy = false ∧ latency s.cfg .btst = 0 ∧
      ∃ h rest p, s.inputs = .access h :: rest ∧ s.present h = .ok p ∧ decodePort p = .btst)

/-- R33 ("No command writes S"), R37 ("The sequencer never writes CMD"): at an edge S and CMD change only
by reset or by a completing host write to their offset. -/
def Obligations.SAndCmdChangeOnlyByHostWrites : Prop :=
  ∀ s t : State, step s = .next t → (∀ rest, s.inputs ≠ .reset :: rest) →
    (t.s ≠ s.s → s.busy = false ∧ ∃ h rest v, s.inputs = .access h :: rest ∧
      s.present h = .ok ⟨true, 24, v⟩ ∧ t.s = v) ∧
    (t.cmd ≠ s.cmd → s.busy = false ∧ ∃ h rest v, s.inputs = .access h :: rest ∧
      s.present h = .ok ⟨true, 25, v⟩ ∧ t.cmd = v)

/-- R32: R is read-only to the host: at an edge it changes only by reset or by a command with DST = R
completing there: one in flight at its last cycle, or one of latency 0 whose CMD write completes while
nothing is in flight. -/
def Obligations.RChangesOnlyByCommands : Prop :=
  ∀ s t : State, step s = .next t → t.r ≠ s.r →
    (∃ rest, s.inputs = .reset :: rest) ∨
    (∃ f, s.inflight = some f ∧ f.dst = .r ∧ f.op.writesValue = true ∧ f.left ≤ 1) ∨
    (s.busy = false ∧ ∃ h rest p op, s.inputs = .access h :: rest ∧ s.present h = .ok p ∧
      commandOf (decodePort p) = some (op, .r) ∧ op.writesValue = true ∧ latency s.cfg op = 0)

/-- R305: while a command stays in flight no register changes: no intermediate value ever appears. -/
def Obligations.NoRegisterChangesWhileBusy : Prop :=
  ∀ s t : State, step s = .next t → s.busy = true → t.busy = true → t.registers = s.registers

/-- The invariant holds after reset. -/
def Obligations.ResetIsSound : Prop := State.reset.Inv

/-- R44, R303, R305: from every state that meets the invariant, a step gives a state that meets it. The
sampling of all five operands is the model's (log 8). -/
def Obligations.EveryStepKeepsTheInvariant : Prop :=
  ∀ s t : State, s.Inv → step s = .next t → t.Inv

/-- R311: an access presented at the port completes within LAT_op + 1 edges, LAT_op that of the command
in flight; within one edge when none is. -/
def Obligations.WaitingAccessCompletes : Prop :=
  ∀ (s : State) (h : HostAccess) (rest : List Input) (p : PortAccess),
    s.Inv → s.inputs = .access h :: rest → s.present h = .ok p →
    ∃ n t, Host.Core.run core n s = .next t ∧ t.inputs = rest ∧
      (∀ f, s.inflight = some f → n ≤ latency s.cfg f.op + 1) ∧ (s.inflight = none → n = 1)

/-- R311, R312: for every latency, a program's run comes to its end, with the registers the atomic
reading leaves; and, where it reads no STATUS, with the same answers. -/
def Obligations.TimedRunEqualsAtomicRun : Prop :=
  ∀ (s : State) (ps : List PortAccess),
    s.inflight = none → s.resetSeen = true → s.inputs = program s.cfg ps →
    ∃ n t u, Host.Core.run core n s = .next t ∧ t.RunOver ∧ t.inputs = [] ∧
      atomicRun ps { s with inputs := [] } = .next u ∧ t.registers = u.registers ∧
      ((∀ p ∈ ps, ¬ isStatusRead p) → observe n s = atomicObserve ps { s with inputs := [] })

/-- R9: "No architectural value depends on any of these parameters." Two blocks that differ in CORE_BASE,
the latencies and MUL_ALG, given one program from the same registers, end with the same registers; and,
where the program reads no STATUS, their answers are the same. -/
def Obligations.NoValueDependsOnTheParameters : Prop :=
  ∀ (s : State) (c : Config) (ps : List PortAccess),
    s.inflight = none → s.resetSeen = true → s.inputs = program s.cfg ps →
    ∃ n t n' t', Host.Core.run core n s = .next t ∧ t.RunOver ∧ t.inputs = [] ∧
      Host.Core.run core n' { s with cfg := c, inputs := program c ps } = .next t' ∧ t'.RunOver ∧
      t'.inputs = [] ∧
      t.registers = t'.registers ∧
      ((∀ p ∈ ps, ¬ isStatusRead p) →
        observe n s = observe n' { s with cfg := c, inputs := program c ps })

/-- R303 items 4 to 6, R276, R311: at every edge that is no reset, whatever is presented (nothing, an idle
edge, an access that waits, a STATUS read that completes), the command in flight advances by one cycle and
no register changes; and at the edge that leaves it no cycle it writes its results and is in flight no
more. -/
def Obligations.CommandInFlightAdvancesAtEveryEdge : Prop :=
  ∀ (s t : State) (f : InFlight), s.inflight = some f → (∀ rest, s.inputs ≠ .reset :: rest) →
    step s = .next t →
    (2 ≤ f.left → t.inflight = some { f with left := f.left - 1 } ∧ t.registers = s.registers) ∧
    (f.left = 1 → t.inflight = none ∧ t.registers = (s.commit (f.result s.cfg)).registers)

/-- R312, R305: the observation is settled once the run is over: at any number of further edges, none of
them a reset, no access completes, no register changes, and the run stays over. -/
def Obligations.ObservationIsFinalOnceTheRunIsOver : Prop :=
  ∀ (s : State) (n : Nat), s.RunOver → .reset ∉ s.inputs.take n →
    (∃ t, Host.Core.run core n s = .next t ∧ t.RunOver ∧ t.registers = s.registers) ∧
    observe n s = []
end

