-- ==== Sys2Proof/Laws/Decode.lean ====
section
/-! SUPPORT. The decoder's and the encoder's small lemmas: a word is its three fields, and a command
word and its opcode and destination determine each other. -/

namespace Sys2Proof

theorem opField_toNat (v : Word) : (opField v).toNat = v.toNat % 16 := by
  simp [opField]

theorem dstField_toNat (v : Word) : (dstField v).toNat = v.toNat / 16 % 4 := by
  simp [dstField, Nat.shiftRight_eq_div_pow]

theorem resField_toNat (v : Word) : (resField v).toNat = v.toNat / 64 := by
  have := v.isLt
  simp [resField, Nat.shiftRight_eq_div_pow]
  omega

/-- A word is determined by its OP, DST and RES fields (R111). -/
theorem word_ext_fields {v w : Word} (ho : opField v = opField w) (hd : dstField v = dstField w)
    (hr : resField v = resField w) : v = w := by
  apply BitVec.eq_of_toNat_eq
  have ho := congrArg BitVec.toNat ho
  have hd := congrArg BitVec.toNat hd
  have hr := congrArg BitVec.toNat hr
  rw [opField_toNat, opField_toNat] at ho
  rw [dstField_toNat, dstField_toNat] at hd
  rw [resField_toNat, resField_toNat] at hr
  omega

@[simp] theorem opField_encode (op : Opcode) (d : Dst) : opField (encodeCommand op d) = op.code := by
  cases op <;> cases d <;> rfl
@[simp] theorem dstField_encode (op : Opcode) (d : Dst) : dstField (encodeCommand op d) = d.code := by
  cases op <;> cases d <;> rfl
@[simp] theorem resField_encode (op : Opcode) (d : Dst) : resField (encodeCommand op d) = 0 := by
  cases op <;> cases d <;> rfl

theorem opcodeOf_eq_some {n : BitVec 4} {op : Opcode} (h : opcodeOf n = some op) : n = op.code := by
  revert op; revert n; decide

theorem dstOf_eq_some {n : BitVec 2} {d : Dst} (h : dstOf n = some d) : n = d.code := by
  revert d; revert n; decide

/-- Whether a command with this opcode may carry this DST (R114). -/
def admits (op : Opcode) (d : Dst) : Prop := op.writesValue = true ∨ d = .r

/-- A legal command word decodes to the opcode and destination it encodes. -/
theorem decodeCommand_encode {op : Opcode} {d : Dst} (h : admits op d) :
    decodeCommand (encodeCommand op d) = .ok (op, d) := by
  unfold admits at h
  cases op <;> cases d <;> first | rfl | simp [Opcode.writesValue] at h

/-- Only the encoding of a command decodes to it. -/
theorem decodeCommand_ok {v : Word} {op : Opcode} {d : Dst} (h : decodeCommand v = .ok (op, d)) :
    v = encodeCommand op d ∧ admits op d := by
  unfold decodeCommand at h
  split at h
  · cases h
  · rename_i hr
    split at h
    · cases h
    · cases h
    · rename_i op' d' ho hd
      split at h
      · rename_i ha
        cases h
        refine ⟨word_ext_fields ?_ ?_ ?_, ha⟩
        · rw [opField_encode, opcodeOf_eq_some ho]
        · rw [dstField_encode, dstOf_eq_some hd]
        · rw [resField_encode]; exact not_not.mp hr
      · cases h

/-- The legality predicate of R115 and the decoder agree. -/
theorem legal_of_decode {v : Word} {op : Opcode} {d : Dst} (h : decodeCommand v = .ok (op, d)) :
    legal v = true := by
  obtain ⟨rfl, ha⟩ := decodeCommand_ok h
  unfold admits at ha
  cases op <;> cases d <;> first | rfl | simp [Opcode.writesValue] at ha

/-- A word that is not legal decodes to no command. -/
theorem decode_error_of_illegal {v : Word} (h : legal v = false) : ∃ e, decodeCommand v = .error e := by
  cases hd : decodeCommand v with
  | error e => exact ⟨e, rfl⟩
  | ok x => rw [legal_of_decode (op := x.1) (d := x.2) hd] at h; cases h

@[simp] theorem commandOf_instrOf {op : Opcode} {d : Dst} (h : admits op d) :
    commandOf (instrOf op d) = some (op, d) := by
  unfold admits at h
  cases op <;> cases d <;> first | rfl | simp [Opcode.writesValue] at h

theorem commandOf_admits {i : Instr} {op : Opcode} {d : Dst} (h : commandOf i = some (op, d)) :
    admits op d ∧ i = instrOf op d := by
  cases i <;> simp only [commandOf, Option.some.injEq, Prod.mk.injEq, reduceCtorEq] at h <;>
    obtain ⟨rfl, rfl⟩ := h <;> exact ⟨by simp [admits, Opcode.writesValue], rfl⟩

/-- A port access that is a command is the write of that command's word to CMD. -/
theorem commandOf_decodePort {p : PortAccess} {op : Opcode} {d : Dst}
    (h : commandOf (decodePort p) = some (op, d)) :
    p.we = true ∧ p.addr = cmdOffset ∧ p.wdata = encodeCommand op d ∧ admits op d := by
  unfold decodePort at h
  split at h
  · rename_i hw
    split at h
    · rename_i ha
      split at h
      · rename_i op' d' hd
        obtain ⟨hv, had⟩ := decodeCommand_ok hd
        rw [commandOf_instrOf had] at h
        cases h
        exact ⟨hw, ha, hv, had⟩
      · cases h
    · cases h
  · cases h

/-- The encoding of a command is the write of its word to CMD. -/
theorem encode_command {i : Instr} {op : Opcode} {d : Dst} (h : commandOf i = some (op, d)) :
    encode i = ⟨true, cmdOffset, encodeCommand op d⟩ := by
  obtain ⟨-, rfl⟩ := commandOf_admits h
  have h2 := commandOf_admits h
  cases op <;> simp_all [instrOf, commandOf, encode]

/-- An access that is no command is what it looks like: a plain read or write. -/
theorem decodePort_plain {p : PortAccess} (h : commandOf (decodePort p) = none) :
    decodePort p = if p.we then .wr p.addr p.wdata else .rd p.addr := by
  unfold decodePort at h ⊢
  split at h
  · rename_i hw
    split at h
    · rename_i ha
      split at h
      · rename_i op d hd
        rw [commandOf_instrOf (decodeCommand_ok hd).2] at h
        cases h
      · simp [hw, ha]
    · rename_i ha; simp [hw, ha]
  · rename_i hw; simp [hw]

/-- A plain write to CMD is the write of a word that decodes to no command. -/
theorem decodePort_plain_cmd {p : PortAccess} (h : commandOf (decodePort p) = none) (hw : p.we = true)
    (ha : p.addr = cmdOffset) : ∃ e, decodeCommand p.wdata = .error e := by
  cases hd : decodeCommand p.wdata with
  | error e => exact ⟨e, rfl⟩
  | ok x =>
    have e : decodePort p = instrOf x.1 x.2 := by rw [decodePort, if_pos hw, if_pos ha, hd]
    rw [e, commandOf_instrOf (decodeCommand_ok (op := x.1) (d := x.2) hd).2] at h
    cases h

end Sys2Proof
end

