-- ==== Sys2Proof/Laws/Operands.lean ====
section
/-! SUPPORT. What each view of a register says: words, bytes of HEXBUF, and the window's map. -/

namespace Sys2Proof.Machine

/-! ## Words of a value -/

theorem word_toNat (v : Value) (k : Nat) : (word v k).toNat = v.toNat / 2 ^ (32 * k) % 2 ^ 32 := by
  simp [word, BitVec.extractLsb'_toNat, Nat.shiftRight_eq_div_pow]

theorem words_eq (v : Value) : words v =
    [word v 0, word v 1, word v 2, word v 3, word v 4, word v 5, word v 6, word v 7] := rfl

@[simp] theorem words_length (v : Value) : (words v).length = 8 := rfl

theorem words_getElem? (v : Value) {k : Nat} (h : k < 8) : (words v)[k]? = some (word v k) := by
  simp [words, h]

theorem wordsNat_lt (ws : List Word) : wordsNat ws < 2 ^ (32 * ws.length) := by
  induction ws with
  | nil => simp [wordsNat]
  | cons w ws ih =>
    have : (2 : Nat) ^ (32 * (w :: ws).length) = 2 ^ 32 * 2 ^ (32 * ws.length) := by
      rw [← Nat.pow_add, List.length_cons]; congr 1; omega
    have hw := w.isLt
    rw [wordsNat, this]
    nlinarith

/-- The words of a value write it: Σ word[i]·2^(32·i). -/
theorem wordsNat_words (v : Value) : wordsNat (words v) = v.toNat := by
  have := v.isLt
  simp only [words_eq, wordsNat, word_toNat]
  omega

@[simp] theorem ofWords_words (v : Value) : ofWords (words v) = v := by
  simp [ofWords, wordsNat_words]

theorem ofWords_toNat (ws : List Word) (h : ws.length = 8) : (ofWords ws).toNat = wordsNat ws := by
  have := wordsNat_lt ws
  rw [h] at this
  simpa [ofWords] using this

theorem wordsNat_div_mod (ws : List Word) (k : Nat) :
    wordsNat ws / 2 ^ (32 * k) % 2 ^ 32 = (ws.getD k 0).toNat := by
  induction ws generalizing k with
  | nil => simp [wordsNat]
  | cons w ws ih =>
    have hw := w.isLt
    cases k with
    | zero => simp [wordsNat]; omega
    | succ k =>
      have : (2 : Nat) ^ (32 * (k + 1)) = 2 ^ 32 * 2 ^ (32 * k) := by rw [← Nat.pow_add]; congr 1; omega
      rw [this, ← Nat.div_div_eq_div_mul, wordsNat]
      have h2 : (w.toNat + 2 ^ 32 * wordsNat ws) / 2 ^ 32 = wordsNat ws := by omega
      rw [h2, ih]; simp

theorem word_ofWords (ws : List Word) (h : ws.length = 8) (k : Nat) :
    word (ofWords ws) k = ws.getD k 0 := by
  apply BitVec.eq_of_toNat_eq
  rw [word_toNat, ofWords_toNat ws h, wordsNat_div_mod]

/-- A word write changes that word and no other. -/
theorem word_setWord (v : Value) (x : Word) {k j : Nat} (hk : k < 8) (hj : j < 8) :
    word (setWord v k x) j = if j = k then x else word v j := by
  rw [setWord, word_ofWords _ (by simp)]
  rw [List.getD_eq_getElem?_getD, List.getElem?_set]
  by_cases h : j = k
  · subst h; simp [hj]
  · rw [if_neg (fun e => h e.symm), words_getElem? v hj]; simp [h]

/-- Two values with the same eight words are the same value. -/
theorem eq_of_words {v w : Value} (h : ∀ k, k < 8 → word v k = word w k) : v = w := by
  rw [← ofWords_words v, ← ofWords_words w]
  simp [words_eq, h]

/-- Bit i of a value is bit i mod 32 of word i div 32 (R192). -/
theorem word_getLsbD (v : Value) (i : Nat) : (word v (i / 32)).getLsbD (i % 32) = v.getLsbD i := by
  have h1 : i % 32 < 32 := Nat.mod_lt _ (by decide)
  have h2 : 32 * (i / 32) + i % 32 = i := Nat.div_add_mod i 32
  simp [word, h1, h2]

/-! ## Words of HEXBUF -/

theorem setHexWord_getElem (buf : HexBuf) (k : Fin 17) (v : Word) (j : Nat) (hj : j < 68) :
    (setHexWord buf k v)[j] = if j / 4 = k.val then v.extractLsb' (8 * (j % 4)) 8 else buf[j] := by
  simp [setHexWord]

/-- Byte lane j of HEXBUF.w[k] is byte 4k + j (R76). -/
theorem hexWord_lane (buf : HexBuf) (k : Fin 17) (j : Fin 4) :
    (hexWord buf k).extractLsb' (8 * j.val) 8 = buf[4 * k.val + j.val] := by
  apply BitVec.eq_of_getLsbD_eq
  intro i hi
  simp only [hexWord, BitVec.getLsbD_extractLsb', BitVec.getLsbD_or, BitVec.getLsbD_shiftLeft,
    BitVec.getLsbD_setWidth]
  fin_cases j <;> interval_cases i <;> simp

theorem hexWord_congr {buf buf' : HexBuf} (k : Fin 17)
    (h : ∀ j : Fin 4, buf[4 * k.val + j.val] = buf'[4 * k.val + j.val]) :
    hexWord buf k = hexWord buf' k := by
  have h0 := h 0; have h1 := h 1; have h2 := h 2; have h3 := h 3
  simp only [Fin.isValue, Fin.val_zero, Fin.val_one, Fin.val_two, Nat.add_zero] at h0 h1 h2
  have h3' : buf[4 * k.val + 3] = buf'[4 * k.val + 3] := h3
  simp only [hexWord, h0, h1, h2, h3']

theorem hexWord_setHexWord_other (buf : HexBuf) {k j : Fin 17} (v : Word) (h : j ≠ k) :
    hexWord (setHexWord buf k v) j = hexWord buf j := by
  apply hexWord_congr
  intro i
  have : (4 * j.val + i.val) / 4 ≠ k.val := by
    intro e; apply h; apply Fin.ext; omega
  rw [setHexWord_getElem _ _ _ _ (by omega), if_neg this]

/-! ## The window's map -/

/-- Every offset and what it names, as one case analysis (R73). -/
theorem windowReg_cases (off : BitVec 6) :
    (∃ k : Fin 8, off.toNat = k.val ∧ windowReg off = .a k) ∨
    (∃ k : Fin 8, off.toNat = 8 + k.val ∧ windowReg off = .b k) ∨
    (∃ k : Fin 8, off.toNat = 16 + k.val ∧ windowReg off = .r k) ∨
    (off = 24 ∧ windowReg off = .s) ∨ (off = cmdOffset ∧ windowReg off = .cmd) ∨
    (off = statusOffset ∧ windowReg off = .status) ∨ (off = 27 ∧ windowReg off = .hexlen) ∨
    (∃ k : Fin 17, off.toNat = 32 + k.val ∧ windowReg off = .hexbuf k) ∨
    (((28 ≤ off.toNat ∧ off.toNat ≤ 31) ∨ 49 ≤ off.toNat) ∧ windowReg off = .unmapped) := by
  revert off; decide

theorem windowReg_a : ∀ k : Fin 8, windowReg (BitVec.ofNat 6 k.val) = .a k := by decide
theorem windowReg_b : ∀ k : Fin 8, windowReg (BitVec.ofNat 6 (8 + k.val)) = .b k := by decide
theorem windowReg_r : ∀ k : Fin 8, windowReg (BitVec.ofNat 6 (16 + k.val)) = .r k := by decide
theorem windowReg_hexbuf : ∀ k : Fin 17, windowReg (BitVec.ofNat 6 (32 + k.val)) = .hexbuf k := by decide
theorem windowReg_s : windowReg 24 = .s := by decide
theorem windowReg_cmd : windowReg 25 = .cmd := by decide
theorem windowReg_status : windowReg 26 = .status := by decide
theorem windowReg_hexlen : windowReg 27 = .hexlen := by decide

/-- No two offsets name one register word (R73). -/
theorem windowReg_injective :
    ∀ off other : BitVec 6, windowReg off = windowReg other → windowReg off ≠ .unmapped → off = other := by
  decide +kernel

end Sys2Proof.Machine
end

