-- ==== Sys2Proof/Laws/Ops.lean ====
section
/-! SUPPORT. One specification lemma for each shared operation: the two ripples, the adder, the negator,
the shifter, the hex decoder's loop, and the read and write of the window. Later proofs cite these and
do not unfold the operations. -/

namespace Sys2Proof.Machine

/-! ## The adder -/

/-- What one word step of the adder splits its sum into. -/
theorem addStep_toNat (x y : Word) (c : Bool) :
    let t : BitVec 64 := x.setWidth 64 + y.setWidth 64 + (BitVec.ofBool c).setWidth 64
    (t.extractLsb' 0 32).toNat + 2 ^ 32 * (t.getLsbD 32).toNat = x.toNat + y.toNat + c.toNat := by
  intro t
  have hx := x.isLt
  have hy := y.isLt
  have hc : c.toNat ≤ 1 := Bool.toNat_le c
  have ht : t.toNat = x.toNat + y.toNat + c.toNat := by
    simp [t]
    omega
  have hb : (t.getLsbD 32).toNat = t.toNat / 2 ^ 32 % 2 := by
    rw [← BitVec.testBit_toNat, Nat.testBit_eq_decide_div_mod_eq]
    rcases Nat.mod_two_eq_zero_or_one (t.toNat / 2 ^ 32) with h | h <;> rw [h] <;> rfl
  rw [hb, BitVec.extractLsb'_toNat, ht]
  simp only [Nat.shiftRight_zero]
  omega

@[simp] theorem ripple_length (xs : List (Word × Word)) (c : Bool) : (ripple xs c).length = xs.length := by
  induction xs generalizing c with
  | nil => rfl
  | cons xy xs ih => simp [ripple, ih]

/-- The ripple of R213: the words written plus the carry out weigh what the operands and the carry in
weigh. -/
theorem ripple_sum (xs : List (Word × Word)) (c : Bool) :
    ∃ cout : Bool, wordsNat (ripple xs c) + 2 ^ (32 * xs.length) * cout.toNat =
      wordsNat (xs.map Prod.fst) + wordsNat (xs.map Prod.snd) + c.toNat := by
  induction xs generalizing c with
  | nil => exact ⟨c, by simp [ripple, wordsNat]⟩
  | cons xy xs ih =>
    obtain ⟨x, y⟩ := xy
    have hs := addStep_toNat x y c
    obtain ⟨cout, h⟩ := ih (((x.setWidth 64 + y.setWidth 64 +
      (BitVec.ofBool c).setWidth 64 : BitVec 64)).getLsbD 32)
    refine ⟨cout, ?_⟩
    have hp : (2 : Nat) ^ (32 * ((x, y) :: xs).length) = 2 ^ 32 * 2 ^ (32 * xs.length) := by
      rw [← Nat.pow_add, List.length_cons]; congr 1; omega
    simp only [ripple, wordsNat, List.map_cons, hp, Nat.mul_assoc]
    simp only at hs
    omega

/-- `Add256(x, y, cin) = (x + y + cin) mod 2^256` (R213). -/
theorem add256_eq (x y : Value) (c : Bool) :
    add256 x y c = BitVec.ofNat 256 (x.toNat + y.toNat + c.toNat) := by
  apply BitVec.eq_of_toNat_eq
  obtain ⟨cout, h⟩ := ripple_sum ((words x).zip (words y)) c
  rw [add256, ofWords_toNat _ (by simp)]
  have hl : ((words x).zip (words y)).length = 8 := by simp
  have hlt := wordsNat_lt (ripple ((words x).zip (words y)) c)
  rw [List.map_fst_zip (by simp), List.map_snd_zip (by simp), wordsNat_words, wordsNat_words, hl] at h
  rw [ripple_length, hl] at hlt
  rw [BitVec.toNat_ofNat]
  cases cout <;> simp at h ⊢ <;> omega

/-- The adder with no carry in is the sum of bit vectors. -/
theorem add256_false (x y : Value) : add256 x y false = x + y := by
  rw [add256_eq]
  apply BitVec.eq_of_toNat_eq
  simp

/-! ## The negator -/

theorem negRipple_eq_ripple (xs : List Word) (c : Bool) :
    negRipple xs c = ripple (xs.map fun x => (~~~x, 0)) c := by
  induction xs generalizing c with
  | nil => rfl
  | cons x xs ih => simp [negRipple, ripple, ih]

theorem wordsNat_complement (xs : List Word) :
    wordsNat (xs.map fun x => ~~~x) + wordsNat xs + 1 = 2 ^ (32 * xs.length) := by
  induction xs with
  | nil => simp [wordsNat]
  | cons x xs ih =>
    have hp : (2 : Nat) ^ (32 * (x :: xs).length) = 2 ^ 32 * 2 ^ (32 * xs.length) := by
      rw [← Nat.pow_add, List.length_cons]; congr 1; omega
    have hx := x.isLt
    simp only [List.map_cons, wordsNat, hp, ← ih, BitVec.toNat_not]
    omega

theorem wordsNat_zeros (xs : List Word) : wordsNat (xs.map fun _ => (0 : Word)) = 0 := by
  induction xs with
  | nil => rfl
  | cons x xs ih => simp only [List.map_cons, wordsNat, ih]; rfl

/-- `Neg256(x)` is the bit vector's negation, (2^256 - x) mod 2^256 (R217). -/
theorem neg256_eq (x : Value) : neg256 x = -x := by
  apply BitVec.eq_of_toNat_eq
  obtain ⟨cout, h⟩ := ripple_sum ((words x).map fun w => (~~~w, 0)) true
  have hc := wordsNat_complement (words x)
  have hlt := wordsNat_lt (negRipple (words x) true)
  have hx := x.isLt
  rw [negRipple_eq_ripple, ripple_length, List.length_map] at hlt
  rw [neg256, negRipple_eq_ripple, ofWords_toNat _ (by simp)]
  simp only [List.map_map, Function.comp_def, wordsNat_zeros, List.length_map, words_length,
    wordsNat_words] at h hc hlt
  rw [BitVec.toNat_neg]
  cases cout <;> simp only [Bool.toNat_true, Bool.toNat_false, Nat.mul_one, Nat.mul_zero] at h <;> omega

/-! ## The shifter -/

theorem shlWord_eq (x : Value) (s k : Nat) (hk : k < 8) : shlWord x s k = word (x <<< s) k := by
  have hb : s % 32 < 32 := Nat.mod_lt _ (by decide)
  have hd := Nat.div_add_mod s 32
  apply BitVec.eq_of_getLsbD_eq
  intro i hi
  simp only [word, BitVec.getLsbD_extractLsb', hi, decide_true, Bool.true_and, BitVec.getLsbD_shiftLeft]
  unfold shlWord
  have h256 : 32 * k + i < 256 := by omega
  by_cases h1 : k < s / 32
  · have : 32 * k + i < s := by omega
    simp [h1, this]
  · simp only [h1, if_false, BitVec.getLsbD_or, BitVec.getLsbD_shiftLeft, hi, decide_true, Bool.true_and,
      h256]
    by_cases h2 : i < s % 32
    · by_cases h3 : s % 32 = 0 ∨ k < s / 32 + 1
      · have : 32 * k + i < s := by omega
        rw [if_pos h3]
        simp [h2, this]
      · have h4 : ¬ 32 * k + i < s := by omega
        have h5 : 32 * (k - s / 32 - 1) + (32 - s % 32 + i) = 32 * k + i - s := by omega
        have h6 : 32 - s % 32 + i < 32 := by omega
        rw [if_neg h3]
        simp [h2, h4, h5, h6, word]
    · have h4 : ¬ 32 * k + i < s := by omega
      have h5 : 32 * (k - s / 32) + (i - s % 32) = 32 * k + i - s := by omega
      have h6 : i - s % 32 < 32 := by omega
      by_cases h3 : s % 32 = 0 ∨ k < s / 32 + 1
      · rw [if_pos h3]
        simp [h2, h4, h5, h6, word]
      · have h7 : ¬ 32 - s % 32 + i < 32 := by omega
        rw [if_neg h3]
        simp [h2, h4, h5, h6, h7, word]

/-- `Shl256(x, s)` is the bit vector's left shift (R226). -/
theorem shl256_eq (x : Value) (s : Nat) : shl256 x s = x <<< s := by
  apply eq_of_words
  intro k hk
  rw [shl256, word_ofWords _ (by simp), ← shlWord_eq x s k hk]
  simp [List.getD_eq_getElem?_getD, hk]

/-! ## The hex decoder -/

theorem nib_lt (c : Byte) : (nib c).toNat < 16 := (nib c).isLt

/-- The decoder's loop adds the characters it reads to what it holds, where that is a multiple of the
weight of the first one (R143: the terms have disjoint positions, so the OR is the sum). -/
theorem hexDecode_eq (cs : List Byte) (v : Value) (h : v.toNat % 16 ^ cs.length = 0) :
    hexDecode cs v = v + parse cs := by
  induction cs generalizing v with
  | nil => simp [hexDecode, parse, parseNat]
  | cons c cs ih =>
    have hn := nib_lt c
    have hv : v.toNat % 16 ^ cs.length = 0 := by
      have := Nat.dvd_of_mod_eq_zero h
      apply Nat.mod_eq_zero_of_dvd
      exact Nat.dvd_trans (Nat.pow_dvd_pow 16 (by simp)) this
    rw [hexDecode]
    by_cases hl : cs.length < 64
    · rw [if_pos hl]
      have hpow : (2 : Nat) ^ (4 * cs.length) = 16 ^ cs.length := by rw [Nat.pow_mul]
      have hle : (16 : Nat) ^ (cs.length + 1) ≤ 2 ^ 256 := by
        have : (2 : Nat) ^ 256 = 16 ^ 64 := by norm_num
        rw [this]; exact Nat.pow_le_pow_right (by decide) (by omega)
      have hdig : (nib c).toNat * 16 ^ cs.length < 16 ^ (cs.length + 1) := by
        rw [Nat.pow_succ, Nat.mul_comm]
        exact Nat.mul_lt_mul_of_pos_left hn (by positivity)
      have hval : ((nib c).setWidth 256 <<< (4 * cs.length) : Value).toNat =
          (nib c).toNat * 16 ^ cs.length := by
        rw [BitVec.toNat_shiftLeft, BitVec.toNat_setWidth, Nat.shiftLeft_eq, hpow,
          Nat.mod_eq_of_lt (a := (nib c).toNat) (by omega), Nat.mod_eq_of_lt (by omega)]
      have hor : (v ||| (nib c).setWidth 256 <<< (4 * cs.length)).toNat =
          v.toNat + (nib c).toNat * 16 ^ cs.length := by
        rw [BitVec.toNat_or, hval]
        obtain ⟨q, hq⟩ := Nat.dvd_of_mod_eq_zero h
        have h2 : (16 : Nat) ^ (c :: cs).length = 2 ^ (4 * (cs.length + 1)) := by
          rw [Nat.pow_mul]; simp
        rw [hq, h2, Nat.mul_comm _ q, ← Nat.shiftLeft_eq,
          ← Nat.shiftLeft_add_eq_or_of_lt (by rw [Nat.pow_mul]; exact hdig)]
      have hadd : v ||| (nib c).setWidth 256 <<< (4 * cs.length) =
          v + BitVec.ofNat 256 ((nib c).toNat * 16 ^ cs.length) := by
        apply BitVec.eq_of_toNat_eq
        have hlt := (v ||| (nib c).setWidth 256 <<< (4 * cs.length)).isLt
        rw [BitVec.toNat_add, BitVec.toNat_ofNat, Nat.add_mod_mod, ← hor, Nat.mod_eq_of_lt hlt]
      rw [ih _ (by rw [hor, Nat.add_mod, hv]; simp), hadd, BitVec.add_assoc]
      congr 1
      apply BitVec.eq_of_toNat_eq
      simp [parse, parseNat]
    · rw [if_neg hl, ih _ hv]
      congr 1
      apply BitVec.eq_of_toNat_eq
      have : (2 : Nat) ^ 256 ∣ (nib c).toNat * 16 ^ cs.length := by
        have h2 : (2 : Nat) ^ 256 = 16 ^ 64 := by norm_num
        rw [h2]
        exact Nat.dvd_trans (Nat.pow_dvd_pow 16 (by omega)) (Nat.dvd_mul_left _ _)
      rw [parse, parse, BitVec.toNat_ofNat, BitVec.toNat_ofNat, parseNat, Nat.add_mod,
        Nat.mod_eq_zero_of_dvd this]
      simp

/-- HEXDEC's loop from 0 is Parse (R143). -/
theorem hexDecode_zero (cs : List Byte) : hexDecode cs 0 = parse cs := by
  rw [hexDecode_eq _ _ (by simp)]; simp

/-! ## The window -/

theorem busRead_a (s : State) (k : Fin 8) : s.busRead (BitVec.ofNat 6 k.val) = some (word s.a k) := by
  simp only [State.busRead, windowReg_a]
theorem busRead_b (s : State) (k : Fin 8) :
    s.busRead (BitVec.ofNat 6 (8 + k.val)) = some (word s.b k) := by
  simp only [State.busRead, windowReg_b]
theorem busRead_r (s : State) (k : Fin 8) :
    s.busRead (BitVec.ofNat 6 (16 + k.val)) = some (word s.r k) := by
  simp only [State.busRead, windowReg_r]
theorem busRead_hexbuf (s : State) (k : Fin 17) :
    s.busRead (BitVec.ofNat 6 (32 + k.val)) = some (hexWord s.hexbuf k) := by
  simp only [State.busRead, windowReg_hexbuf]
theorem busWrite_a (s : State) (k : Fin 8) (v : Word) :
    s.busWrite (BitVec.ofNat 6 k.val) v = some { s with a := setWord s.a k v } := by
  simp only [State.busWrite, windowReg_a]
theorem busWrite_b (s : State) (k : Fin 8) (v : Word) :
    s.busWrite (BitVec.ofNat 6 (8 + k.val)) v = some { s with b := setWord s.b k v } := by
  simp only [State.busWrite, windowReg_b]
theorem busWrite_hexbuf (s : State) (k : Fin 17) (v : Word) :
    s.busWrite (BitVec.ofNat 6 (32 + k.val)) v =
      some { s with hexbuf := setHexWord s.hexbuf k v } := by
  simp only [State.busWrite, windowReg_hexbuf]
theorem busWrite_s (s : State) (v : Word) : s.busWrite 24 v = some { s with s := v } := rfl
theorem busWrite_cmd (s : State) (v : Word) : s.busWrite cmdOffset v = some { s with cmd := v } := rfl
theorem busWrite_hexlen (s : State) (v : Word) :
    s.busWrite 27 v = some { s with hexlen := v.extractLsb' 0 7 } := rfl

/-- Everything a register write can do: it leaves R, the status bits, the command in flight and the
model's own fields alone, and S and CMD but for their own offsets (R80). -/
theorem busWrite_frame {s t : State} {off : BitVec 6} {v : Word} (h : s.busWrite off v = some t) :
    t.r = s.r ∧ t.bit = s.bit ∧ t.err = s.err ∧ t.inflight = s.inflight ∧ t.cfg = s.cfg ∧
      t.inputs = s.inputs ∧ t.resp = s.resp ∧ t.resetSeen = s.resetSeen ∧
      (t.s = s.s ∨ (off = 24 ∧ t.s = v)) ∧ (t.cmd = s.cmd ∨ (off = cmdOffset ∧ t.cmd = v)) := by
  unfold State.busWrite at h
  rcases windowReg_cases off with ⟨k, -, e⟩ | ⟨k, -, e⟩ | ⟨k, -, e⟩ | ⟨ho, e⟩ | ⟨ho, e⟩ | ⟨-, e⟩ | ⟨-, e⟩ |
    ⟨k, -, e⟩ | ⟨-, e⟩ <;> simp only [e, Option.some.injEq, reduceCtorEq] at h <;> subst h <;> simp [*]

end Sys2Proof.Machine
end

