-- ==== Sys2Proof/Laws/Hex.lean ====
section
/-! SUPPORT. The hex functions: the digits, Parse of a joined string, and the two cases of Fmt. -/

namespace Sys2Proof.Machine

theorem nibble_toNat (v : Value) (j : Nat) : (nibble v j).toNat = v.toNat / 16 ^ j % 16 := by
  simp [nibble, BitVec.extractLsb'_toNat, Nat.shiftRight_eq_div_pow, Nat.pow_mul]

@[simp] theorem nib_hexchar : ∀ d : Nibble, nib (hexchar d) = d := by decide

theorem hexchar_lowercase : ∀ d : Nibble,
    (0x30 ≤ (hexchar d).toNat ∧ (hexchar d).toNat ≤ 0x39) ∨
    (0x61 ≤ (hexchar d).toNat ∧ (hexchar d).toNat ≤ 0x66) := by decide

theorem eq_zero_of_hexchar : ∀ d : Nibble, hexchar d = 0x30 → d = 0 := by decide

theorem parseNat_append (xs ys : List Byte) :
    parseNat (xs ++ ys) = parseNat xs * 16 ^ ys.length + parseNat ys := by
  induction xs with
  | nil => simp [parseNat]
  | cons x xs ih => simp [parseNat, ih, Nat.pow_add]; ring

/-- The search from the top for the first index that meets `p`. -/
theorem find_from_top (p : Nat → Bool) (n : Nat) :
    ((List.range n).reverse.find? p = none ∧ ∀ j < n, p j = false) ∨
    (∃ t, (List.range n).reverse.find? p = some t ∧ t < n ∧ p t = true ∧
      ∀ j, t < j → j < n → p j = false) := by
  induction n with
  | zero => left; simp
  | succ n ih =>
    rw [List.range_succ, List.reverse_append, List.reverse_singleton, List.singleton_append]
    by_cases hp : p n = true
    · right; exact ⟨n, by simp [hp], by omega, hp, by omega⟩
    · have hp : p n = false := by simpa using hp
      rw [List.find?_cons_of_neg (by simp [hp])]
      rcases ih with ⟨h1, h2⟩ | ⟨t, h1, h2, h3, h4⟩
      · left
        refine ⟨h1, fun j hj => ?_⟩
        rcases Nat.lt_succ_iff_lt_or_eq.mp hj with h | rfl
        · exact h2 j h
        · exact hp
      · right
        refine ⟨t, h1, by omega, h3, fun j hj hjn => ?_⟩
        rcases Nat.lt_succ_iff_lt_or_eq.mp hjn with h | rfl
        · exact h4 j hj h
        · exact hp

/-- Digits that are all 0 above position t do not count. -/
theorem mod_of_zero_above (v : Value) (t : Nat) (h : ∀ j, t < j → j < 64 → nibble v j = 0) (k : Nat)
    (hk : t + 1 + k ≤ 64) : v.toNat % 16 ^ (t + 1 + k) = v.toNat % 16 ^ (t + 1) := by
  induction k with
  | zero => rfl
  | succ k ih =>
    have := congrArg BitVec.toNat (h (t + 1 + k) (by omega) (by omega))
    rw [nibble_toNat] at this
    rw [← Nat.add_assoc, Nat.mod_pow_succ, this, ← ih (by omega)]
    simp

/-- Fmt by its two cases (R171): "0" for zero; else the digits from the top non-zero nibble down, which
hold the whole value. -/
theorem fmt_cases (v : Value) :
    (v = 0 ∧ fmt v = [0x30]) ∨
    (v ≠ 0 ∧ ∃ t, t < 64 ∧ nibble v t ≠ 0 ∧ v.toNat % 16 ^ (t + 1) = v.toNat ∧
      fmt v = (List.range (t + 1)).reverse.map fun j => hexchar (nibble v j)) := by
  have hv : v.toNat % 16 ^ 64 = v.toNat :=
    Nat.mod_eq_of_lt (by have := v.isLt; norm_num at this ⊢; exact this)
  rcases find_from_top (fun j => decide (nibble v j ≠ 0)) 64 with ⟨h1, h2⟩ | ⟨t, h1, h2, h3, h4⟩
  · left
    refine ⟨?_, by simp only [fmt, topNibble, h1]⟩
    apply BitVec.eq_of_toNat_eq
    have := mod_of_zero_above v 0 (fun j _ hj => by simpa using h2 j hj) 63 (by omega)
    rw [hv] at this
    have h0 := congrArg BitVec.toNat (show nibble v 0 = 0 by simpa using h2 0 (by omega))
    rw [nibble_toNat] at h0
    simp at h0
    rw [this]
    simpa using h0
  · right
    simp only [decide_eq_true_eq] at h3
    refine ⟨?_, t, h2, h3, ?_, by simp only [fmt, topNibble, h1]⟩
    · rintro rfl
      apply h3
      apply BitVec.eq_of_toNat_eq
      rw [nibble_toNat]
      simp
    · have := mod_of_zero_above v t (fun j hj hj' => by simpa using h4 j hj hj') (63 - t) (by omega)
      rw [show t + 1 + (63 - t) = 64 by omega, hv] at this
      exact this.symm

/-- HEXENC's string has 1 to 64 characters (R170). -/
theorem fmt_length (v : Value) : 1 ≤ (fmt v).length ∧ (fmt v).length ≤ 64 := by
  rcases fmt_cases v with ⟨-, h⟩ | ⟨-, t, ht, -, -, h⟩
  · rw [h]; decide
  · rw [h]; simp; omega

end Sys2Proof.Machine
end

