-- ==== Sys2Proof/Laws/PerInstr.lean ====
section
/-! SUPPORT. Per instruction: the encoder's access has the row that spec/opcode_table.json gives the
instruction (its "match" and "mask"; the two host accesses have no match, only `we` and the offset). -/

namespace Sys2Proof.Laws.TableRow

/-- A command's access writes CMD, and its word equals the row's match under the row's mask. -/
def Row (p : PortAccess) (value mask : Word) : Prop :=
  p.we = true ∧ p.addr = 25 ∧ p.wdata &&& mask = value

/-- The row of each instruction. -/
def Statement (i : Instr) : Prop :=
  match i with
  | .ldi _ => Row (encode i) 0x00000001 0xFFFFFFCF
  | .hexdec _ => Row (encode i) 0x00000002 0xFFFFFFCF
  | .hexsh _ => Row (encode i) 0x00000003 0xFFFFFFCF
  | .hexenc => Row (encode i) 0x00000004 0xFFFFFFFF
  | .btst => Row (encode i) 0x00000005 0xFFFFFFFF
  | .add _ => Row (encode i) 0x00000006 0xFFFFFFCF
  | .neg _ => Row (encode i) 0x00000007 0xFFFFFFCF
  | .sub _ => Row (encode i) 0x00000008 0xFFFFFFCF
  | .shl _ => Row (encode i) 0x00000009 0xFFFFFFCF
  | .mul _ => Row (encode i) 0x0000000A 0xFFFFFFCF
  | .rd off => (encode i).we = false ∧ (encode i).addr = off
  | .wr off v => (encode i).we = true ∧ (encode i).addr = off ∧ (encode i).wdata = v

theorem ldi (d : Dst) : Statement (.ldi d) := by cases d <;> exact ⟨rfl, rfl, rfl⟩
theorem hexdec (d : Dst) : Statement (.hexdec d) := by cases d <;> exact ⟨rfl, rfl, rfl⟩
theorem hexsh (d : Dst) : Statement (.hexsh d) := by cases d <;> exact ⟨rfl, rfl, rfl⟩
theorem hexenc : Statement .hexenc := ⟨rfl, rfl, rfl⟩
theorem btst : Statement .btst := ⟨rfl, rfl, rfl⟩
theorem add (d : Dst) : Statement (.add d) := by cases d <;> exact ⟨rfl, rfl, rfl⟩
theorem neg (d : Dst) : Statement (.neg d) := by cases d <;> exact ⟨rfl, rfl, rfl⟩
theorem sub (d : Dst) : Statement (.sub d) := by cases d <;> exact ⟨rfl, rfl, rfl⟩
theorem shl (d : Dst) : Statement (.shl d) := by cases d <;> exact ⟨rfl, rfl, rfl⟩
theorem mul (d : Dst) : Statement (.mul d) := by cases d <;> exact ⟨rfl, rfl, rfl⟩
theorem rd (off : BitVec 6) : Statement (.rd off) := ⟨rfl, rfl⟩
theorem wr (off : BitVec 6) (v : Word) : Statement (.wr off v) := ⟨rfl, rfl, rfl⟩

end Sys2Proof.Laws.TableRow
end

