-- ==== Sys2Proof/Laws/State.lean ====
section
/-! SUPPORT. One lemma per field per update of State, so that no later proof unfolds a record update. -/

namespace Sys2Proof.Machine

variable (s : State)

/-! ## `reg[DST] <- v` -/

@[simp] theorem writeDst_a (d : Dst) (v : Value) :
    (s.writeDst d v).a = if d = .a then v else s.a := by cases d <;> rfl
@[simp] theorem writeDst_b (d : Dst) (v : Value) :
    (s.writeDst d v).b = if d = .b then v else s.b := by cases d <;> rfl
@[simp] theorem writeDst_r (d : Dst) (v : Value) :
    (s.writeDst d v).r = if d = .r then v else s.r := by cases d <;> rfl
@[simp] theorem writeDst_s (d : Dst) (v : Value) : (s.writeDst d v).s = s.s := by
  cases d <;> rfl
@[simp] theorem writeDst_cmd (d : Dst) (v : Value) : (s.writeDst d v).cmd = s.cmd := by
  cases d <;> rfl
@[simp] theorem writeDst_bit (d : Dst) (v : Value) : (s.writeDst d v).bit = s.bit := by
  cases d <;> rfl
@[simp] theorem writeDst_err (d : Dst) (v : Value) : (s.writeDst d v).err = s.err := by
  cases d <;> rfl
@[simp] theorem writeDst_hexlen (d : Dst) (v : Value) : (s.writeDst d v).hexlen = s.hexlen := by
  cases d <;> rfl
@[simp] theorem writeDst_hexbuf (d : Dst) (v : Value) : (s.writeDst d v).hexbuf = s.hexbuf := by
  cases d <;> rfl
@[simp] theorem writeDst_inflight (d : Dst) (v : Value) : (s.writeDst d v).inflight = s.inflight := by
  cases d <;> rfl
@[simp] theorem writeDst_cfg (d : Dst) (v : Value) : (s.writeDst d v).cfg = s.cfg := by
  cases d <;> rfl
@[simp] theorem writeDst_inputs (d : Dst) (v : Value) : (s.writeDst d v).inputs = s.inputs := by
  cases d <;> rfl
@[simp] theorem writeDst_resp (d : Dst) (v : Value) : (s.writeDst d v).resp = s.resp := by
  cases d <;> rfl
@[simp] theorem writeDst_resetSeen (d : Dst) (v : Value) : (s.writeDst d v).resetSeen = s.resetSeen := by
  cases d <;> rfl

/-! ## STATUS.ERR and STATUS.BIT -/

@[simp] theorem setErr_a (e : ErrCode) : (s.setErr e).a = s.a := rfl
@[simp] theorem setErr_b (e : ErrCode) : (s.setErr e).b = s.b := rfl
@[simp] theorem setErr_r (e : ErrCode) : (s.setErr e).r = s.r := rfl
@[simp] theorem setErr_s (e : ErrCode) : (s.setErr e).s = s.s := rfl
@[simp] theorem setErr_cmd (e : ErrCode) : (s.setErr e).cmd = s.cmd := rfl
@[simp] theorem setErr_bit (e : ErrCode) : (s.setErr e).bit = s.bit := rfl
@[simp] theorem setErr_err (e : ErrCode) : (s.setErr e).err = e := rfl
@[simp] theorem setErr_hexlen (e : ErrCode) : (s.setErr e).hexlen = s.hexlen := rfl
@[simp] theorem setErr_hexbuf (e : ErrCode) : (s.setErr e).hexbuf = s.hexbuf := rfl
@[simp] theorem setErr_inflight (e : ErrCode) : (s.setErr e).inflight = s.inflight := rfl
@[simp] theorem setErr_cfg (e : ErrCode) : (s.setErr e).cfg = s.cfg := rfl
@[simp] theorem setErr_inputs (e : ErrCode) : (s.setErr e).inputs = s.inputs := rfl
@[simp] theorem setErr_resp (e : ErrCode) : (s.setErr e).resp = s.resp := rfl
@[simp] theorem setErr_resetSeen (e : ErrCode) : (s.setErr e).resetSeen = s.resetSeen := rfl

@[simp] theorem setBit_a (x : Bool) : (s.setBit x).a = s.a := rfl
@[simp] theorem setBit_b (x : Bool) : (s.setBit x).b = s.b := rfl
@[simp] theorem setBit_r (x : Bool) : (s.setBit x).r = s.r := rfl
@[simp] theorem setBit_s (x : Bool) : (s.setBit x).s = s.s := rfl
@[simp] theorem setBit_cmd (x : Bool) : (s.setBit x).cmd = s.cmd := rfl
@[simp] theorem setBit_bit (x : Bool) : (s.setBit x).bit = x := rfl
@[simp] theorem setBit_err (x : Bool) : (s.setBit x).err = s.err := rfl
@[simp] theorem setBit_hexlen (x : Bool) : (s.setBit x).hexlen = s.hexlen := rfl
@[simp] theorem setBit_hexbuf (x : Bool) : (s.setBit x).hexbuf = s.hexbuf := rfl
@[simp] theorem setBit_inflight (x : Bool) : (s.setBit x).inflight = s.inflight := rfl
@[simp] theorem setBit_cfg (x : Bool) : (s.setBit x).cfg = s.cfg := rfl
@[simp] theorem setBit_inputs (x : Bool) : (s.setBit x).inputs = s.inputs := rfl
@[simp] theorem setBit_resp (x : Bool) : (s.setBit x).resp = s.resp := rfl
@[simp] theorem setBit_resetSeen (x : Bool) : (s.setBit x).resetSeen = s.resetSeen := rfl

/-! ## Errors -/

@[simp] theorem raiseCmdError_a (e : ErrCode) : (s.raiseCmdError e).a = s.a := rfl
@[simp] theorem raiseCmdError_b (e : ErrCode) : (s.raiseCmdError e).b = s.b := rfl
@[simp] theorem raiseCmdError_r (e : ErrCode) : (s.raiseCmdError e).r = s.r := rfl
@[simp] theorem raiseCmdError_s (e : ErrCode) : (s.raiseCmdError e).s = s.s := rfl
@[simp] theorem raiseCmdError_cmd (e : ErrCode) : (s.raiseCmdError e).cmd = s.cmd := rfl
@[simp] theorem raiseCmdError_bit (e : ErrCode) : (s.raiseCmdError e).bit = s.bit := rfl
@[simp] theorem raiseCmdError_err (e : ErrCode) : (s.raiseCmdError e).err = e := rfl
@[simp] theorem raiseCmdError_hexlen (e : ErrCode) : (s.raiseCmdError e).hexlen = s.hexlen := rfl
@[simp] theorem raiseCmdError_hexbuf (e : ErrCode) : (s.raiseCmdError e).hexbuf = s.hexbuf := rfl
@[simp] theorem raiseCmdError_inflight (e : ErrCode) : (s.raiseCmdError e).inflight = s.inflight := rfl
@[simp] theorem raiseCmdError_cfg (e : ErrCode) : (s.raiseCmdError e).cfg = s.cfg := rfl
@[simp] theorem raiseCmdError_inputs (e : ErrCode) : (s.raiseCmdError e).inputs = s.inputs := rfl
@[simp] theorem raiseCmdError_resp (e : ErrCode) : (s.raiseCmdError e).resp = s.resp := rfl
@[simp] theorem raiseCmdError_resetSeen (e : ErrCode) : (s.raiseCmdError e).resetSeen = s.resetSeen := rfl

@[simp] theorem raiseBusError_a : (s.raiseBusError).a = s.a := rfl
@[simp] theorem raiseBusError_b : (s.raiseBusError).b = s.b := rfl
@[simp] theorem raiseBusError_r : (s.raiseBusError).r = s.r := rfl
@[simp] theorem raiseBusError_s : (s.raiseBusError).s = s.s := rfl
@[simp] theorem raiseBusError_cmd : (s.raiseBusError).cmd = s.cmd := rfl
@[simp] theorem raiseBusError_bit : (s.raiseBusError).bit = s.bit := rfl
@[simp] theorem raiseBusError_err : (s.raiseBusError).err = s.err := rfl
@[simp] theorem raiseBusError_hexlen : (s.raiseBusError).hexlen = s.hexlen := rfl
@[simp] theorem raiseBusError_hexbuf : (s.raiseBusError).hexbuf = s.hexbuf := rfl
@[simp] theorem raiseBusError_inflight : (s.raiseBusError).inflight = s.inflight := rfl
@[simp] theorem raiseBusError_cfg : (s.raiseBusError).cfg = s.cfg := rfl
@[simp] theorem raiseBusError_inputs : (s.raiseBusError).inputs = s.inputs := rfl
@[simp] theorem raiseBusError_resp : (s.raiseBusError).resp = some ⟨0, true⟩ := rfl
@[simp] theorem raiseBusError_resetSeen : (s.raiseBusError).resetSeen = s.resetSeen := rfl

/-! ## Answers -/

@[simp] theorem answer_a (w : Word) : (s.answer w).a = s.a := rfl
@[simp] theorem answer_b (w : Word) : (s.answer w).b = s.b := rfl
@[simp] theorem answer_r (w : Word) : (s.answer w).r = s.r := rfl
@[simp] theorem answer_s (w : Word) : (s.answer w).s = s.s := rfl
@[simp] theorem answer_cmd (w : Word) : (s.answer w).cmd = s.cmd := rfl
@[simp] theorem answer_bit (w : Word) : (s.answer w).bit = s.bit := rfl
@[simp] theorem answer_err (w : Word) : (s.answer w).err = s.err := rfl
@[simp] theorem answer_hexlen (w : Word) : (s.answer w).hexlen = s.hexlen := rfl
@[simp] theorem answer_hexbuf (w : Word) : (s.answer w).hexbuf = s.hexbuf := rfl
@[simp] theorem answer_inflight (w : Word) : (s.answer w).inflight = s.inflight := rfl
@[simp] theorem answer_cfg (w : Word) : (s.answer w).cfg = s.cfg := rfl
@[simp] theorem answer_inputs (w : Word) : (s.answer w).inputs = s.inputs := rfl
@[simp] theorem answer_resp (w : Word) : (s.answer w).resp = some ⟨w, false⟩ := rfl
@[simp] theorem answer_resetSeen (w : Word) : (s.answer w).resetSeen = s.resetSeen := rfl

/-! ## Reset -/

@[simp] theorem resetEdge_a : (s.resetEdge).a = 0 := rfl
@[simp] theorem resetEdge_b : (s.resetEdge).b = 0 := rfl
@[simp] theorem resetEdge_r : (s.resetEdge).r = 0 := rfl
@[simp] theorem resetEdge_s : (s.resetEdge).s = 0 := rfl
@[simp] theorem resetEdge_cmd : (s.resetEdge).cmd = 0 := rfl
@[simp] theorem resetEdge_bit : (s.resetEdge).bit = false := rfl
@[simp] theorem resetEdge_err : (s.resetEdge).err = .noError := rfl
@[simp] theorem resetEdge_hexlen : (s.resetEdge).hexlen = 0 := rfl
@[simp] theorem resetEdge_hexbuf : (s.resetEdge).hexbuf = Vector.replicate 68 0 := rfl
@[simp] theorem resetEdge_inflight : (s.resetEdge).inflight = none := rfl
@[simp] theorem resetEdge_cfg : (s.resetEdge).cfg = s.cfg := rfl
@[simp] theorem resetEdge_inputs : (s.resetEdge).inputs = s.inputs := rfl
@[simp] theorem resetEdge_resp : (s.resetEdge).resp = none := rfl
@[simp] theorem resetEdge_resetSeen : (s.resetEdge).resetSeen = true := rfl

/-! ## Completing a command -/

theorem commit_value (d : Dst) (v : Value) :
    s.commit (.value d v) = (s.writeDst d v).setErr .noError := rfl
theorem commit_text (buf : HexBuf) (len : BitVec 7) :
    s.commit (.text buf len) = { s with hexbuf := buf, hexlen := len, err := .noError } := rfl
theorem commit_bit (x : Bool) : s.commit (.bit x) = { s with bit := x, err := .noError } := rfl
theorem commit_error (e : ErrCode) : s.commit (.error e) = { s with err := e } := rfl

@[simp] theorem commit_s (w : Result) : (s.commit w).s = s.s := by
  cases w <;> simp [State.commit]
@[simp] theorem commit_cmd (w : Result) : (s.commit w).cmd = s.cmd := by
  cases w <;> simp [State.commit]
@[simp] theorem commit_inflight (w : Result) : (s.commit w).inflight = s.inflight := by
  cases w <;> simp [State.commit]
@[simp] theorem commit_cfg (w : Result) : (s.commit w).cfg = s.cfg := by
  cases w <;> simp [State.commit]
@[simp] theorem commit_inputs (w : Result) : (s.commit w).inputs = s.inputs := by
  cases w <;> simp [State.commit]
@[simp] theorem commit_resp (w : Result) : (s.commit w).resp = s.resp := by
  cases w <;> simp [State.commit]
@[simp] theorem commit_resetSeen (w : Result) : (s.commit w).resetSeen = s.resetSeen := by
  cases w <;> simp [State.commit]

/-- What is written does not depend on, and leaves, what the port answers and what is in flight. -/
theorem commit_with_resp_inflight (w : Result) (x : Option Response) (y : Option InFlight) :
    ({ s with resp := x, inflight := y } : State).commit w =
      { s.commit w with resp := x, inflight := y } := by
  cases w with
  | value d v => cases d <;> rfl
  | text => rfl
  | bit => rfl
  | error => rfl

theorem commit_with_resp (w : Result) (x : Option Response) :
    ({ s with resp := x } : State).commit w = { s.commit w with resp := x } := by
  cases w with
  | value d v => cases d <;> rfl
  | text => rfl
  | bit => rfl
  | error => rfl

/-! ## The registers, as a group -/

@[simp] theorem registers_inputs (i : List Input) : { s with inputs := i }.registers = s.registers := rfl
@[simp] theorem registers_resp (x : Option Response) : { s with resp := x }.registers = s.registers := rfl
@[simp] theorem registers_inflight (x : Option InFlight) :
    { s with inflight := x }.registers = s.registers := rfl

/-- The sampled operands are a function of the registers. -/
theorem sample_eq_of_registers {s t : State} (h : s.registers = t.registers) : s.sample = t.sample := by
  simp only [State.registers, Registers.mk.injEq] at h
  simp [State.sample, h]

/-- What a command leaves in the registers is a function of what it writes and of the registers. -/
theorem commit_registers_congr {s t : State} (h : s.registers = t.registers) (w : Result) :
    (s.commit w).registers = (t.commit w).registers := by
  simp only [State.registers, Registers.mk.injEq] at h
  cases w with
  | value d v => cases d <;> simp [State.commit, State.registers, State.setErr, State.writeDst, h]
  | text buf len => simp [State.commit, State.registers, State.setErr, h]
  | bit x => simp [State.commit, State.registers, State.setErr, State.setBit, h]
  | error e => simp [State.commit, State.registers, State.raiseCmdError, State.setErr, h]

/-! ## Reading back a destination -/

@[simp] theorem readDst_writeDst (d e : Dst) (v : Value) :
    (s.writeDst d v).readDst e = if e = d then v else s.readDst e := by
  cases d <;> cases e <;> rfl

@[simp] theorem readDst_setErr (d : Dst) (e : ErrCode) : (s.setErr e).readDst d = s.readDst d := by
  cases d <;> rfl

end Sys2Proof.Machine
end

