-- ==== Sys2Proof/Laws/Sequencer.lean ====
section
/-! SUPPORT. What a command does, said once for all ten: its meaning writes its result, its result is an
error exactly where an operand check fails, and its effect stays in its write set. -/

namespace Sys2Proof.Machine

/-- The meaning of a command is the write of its result, computed from the operands as they stand. -/
theorem exec_command {i : Instr} {op : Opcode} {d : Dst} (h : commandOf i = some (op, d)) (s : State) :
    exec i s = .next (s.commit (commandResult s.cfg.mulAlg op d s.sample)) := by
  obtain ⟨-, rfl⟩ := commandOf_admits h
  cases op <;> rfl

/-- HEXDEC's check (R143). -/
theorem hexdecResult_ok (d : Dst) {o : Operands} (h : o.hexlen.toNat ≤ 68) :
    hexdecResult d o = .value d (parse (o.hexbuf.toList.take o.hexlen.toNat)) := by
  rw [hexdecResult, if_neg (by omega), hexDecode_zero]
theorem hexdecResult_error (d : Dst) {o : Operands} (h : 68 < o.hexlen.toNat) :
    hexdecResult d o = .error .hexlenRange := by
  rw [hexdecResult, if_pos h]

/-- SHL's check (R224). -/
theorem shlResult_ok (d : Dst) {o : Operands} (h : o.s.toNat ≤ 255) :
    shlResult d o = .value d (o.a <<< o.s.toNat) := by
  rw [shlResult, if_neg (by omega), shl256_eq]
theorem shlResult_error (d : Dst) {o : Operands} (h : 255 < o.s.toNat) :
    shlResult d o = .error .shiftRange := by
  rw [shlResult, if_pos h]

/-- What a command can write, by opcode, and when its operand check fails (R47, R266). -/
theorem commandResult_cases (alg : MulAlg) (op : Opcode) (d : Dst) (o : Operands) :
    (∃ v, op.writesValue = true ∧ ¬ (op = .shl ∧ 255 < o.s.toNat) ∧
      ¬ (op = .hexdec ∧ 68 < o.hexlen.toNat) ∧ commandResult alg op d o = .value d v) ∨
    (∃ buf len, op = .hexenc ∧ commandResult alg op d o = .text buf len) ∨
    (∃ x, op = .btst ∧ commandResult alg op d o = .bit x) ∨
    (op = .shl ∧ 255 < o.s.toNat ∧ commandResult alg op d o = .error .shiftRange) ∨
    (op = .hexdec ∧ 68 < o.hexlen.toNat ∧ commandResult alg op d o = .error .hexlenRange) := by
  cases op with
  | hexdec =>
    rcases Nat.lt_or_ge 68 o.hexlen.toNat with h | h
    · exact .inr (.inr (.inr (.inr ⟨rfl, h, hexdecResult_error d h⟩)))
    · exact .inl ⟨_, rfl, by simp, by omega, hexdecResult_ok d h⟩
  | shl =>
    rcases Nat.lt_or_ge 255 o.s.toNat with h | h
    · exact .inr (.inr (.inr (.inl ⟨rfl, h, shlResult_error d h⟩)))
    · exact .inl ⟨_, rfl, by omega, by simp, shlResult_ok d h⟩
  | hexenc => exact .inr (.inl ⟨_, _, rfl, rfl⟩)
  | btst => exact .inr (.inr (.inl ⟨_, rfl, rfl⟩))
  | ldi => exact .inl ⟨_, rfl, by simp, by simp, rfl⟩
  | hexsh => exact .inl ⟨_, rfl, by simp, by simp, rfl⟩
  | add => exact .inl ⟨_, rfl, by simp, by simp, rfl⟩
  | neg => exact .inl ⟨_, rfl, by simp, by simp, rfl⟩
  | sub => exact .inl ⟨_, rfl, by simp, by simp, rfl⟩
  | mul => exact .inl ⟨_, rfl, by simp, by simp, rfl⟩

/-- A result is an error exactly where the operand check fails (R266, R267). -/
theorem commandResult_isError (alg : MulAlg) (op : Opcode) (d : Dst) (o : Operands) :
    (commandResult alg op d o).isError = true ↔
      (op = .shl ∧ 255 < o.s.toNat) ∨ (op = .hexdec ∧ 68 < o.hexlen.toNat) := by
  rcases commandResult_cases alg op d o with ⟨v, -, h1, h2, e⟩ | ⟨buf, len, h, e⟩ | ⟨x, h, e⟩ |
    ⟨h, hs, e⟩ | ⟨h, hs, e⟩ <;> rw [e]
  · simpa [Result.isError] using ⟨by simpa using h1, by simpa using h2⟩
  · simp [Result.isError, h]
  · simp [Result.isError, h]
  · simp [Result.isError, h, hs]
  · simp [Result.isError, h, hs]

/-! ## Ticking -/

theorem tick_none {s : State} (h : s.inflight = none) : s.tick = s := by simp [State.tick, h]

theorem tick_done {s : State} {f : InFlight} (h : s.inflight = some f) (hl : f.left ≤ 1) :
    s.tick = { s.commit (f.result s.cfg) with inflight := none } := by simp [State.tick, h, hl]

theorem tick_count {s : State} {f : InFlight} (h : s.inflight = some f) (hl : ¬ f.left ≤ 1) :
    s.tick = { s with inflight := some { f with left := f.left - 1 } } := by simp [State.tick, h, hl]

@[simp] theorem tick_inputs (s : State) : s.tick.inputs = s.inputs := by
  unfold State.tick; split
  · rfl
  · split <;> simp
@[simp] theorem tick_resp (s : State) : s.tick.resp = s.resp := by
  unfold State.tick; split
  · rfl
  · split <;> simp
@[simp] theorem tick_cfg (s : State) : s.tick.cfg = s.cfg := by
  unfold State.tick; split
  · rfl
  · split <;> simp
@[simp] theorem tick_resetSeen (s : State) : s.tick.resetSeen = s.resetSeen := by
  unfold State.tick; split
  · rfl
  · split <;> simp
@[simp] theorem tick_s (s : State) : s.tick.s = s.s := by
  unfold State.tick; split
  · rfl
  · split <;> simp
@[simp] theorem tick_cmd (s : State) : s.tick.cmd = s.cmd := by
  unfold State.tick; split
  · rfl
  · split <;> simp

/-- Everything an edge can do to the command in flight: nothing, a cycle less, or its completion. -/
theorem tick_cases (s : State) :
    (s.tick.registers = s.registers ∧ s.tick.busy = s.busy) ∨
    ∃ f, s.inflight = some f ∧ f.left ≤ 1 ∧
      s.tick = { s.commit (f.result s.cfg) with inflight := none } := by
  cases hf : s.inflight with
  | none => left; rw [tick_none hf]; simp
  | some f =>
    by_cases hl : f.left ≤ 1
    · right; exact ⟨f, rfl, hl, tick_done hf hl⟩
    · left; rw [tick_count hf hl]; exact ⟨rfl, by simp [State.busy, hf]⟩

theorem edgeWithoutAccess_count {s : State} {f : InFlight} (h : s.inflight = some f)
    (hl : ¬ f.left ≤ 1) :
    s.edgeWithoutAccess =
      { s with resp := none, inflight := some { f with left := f.left - 1 } } := by
  unfold State.edgeWithoutAccess
  rw [tick_count (s := { s with resp := none }) h hl]

theorem edgeWithoutAccess_done {s : State} {f : InFlight} (h : s.inflight = some f)
    (hl : f.left ≤ 1) :
    s.edgeWithoutAccess = { s.commit (f.result s.cfg) with resp := none, inflight := none } := by
  unfold State.edgeWithoutAccess
  rw [tick_done (s := { s with resp := none }) h hl, commit_with_resp]

/-! ## Beginning an access -/

theorem beginAccess_command {i : Instr} {op : Opcode} {d : Dst} (h : commandOf i = some (op, d))
    (s : State) : s.beginAccess i = { s with cmd := encodeCommand op d, resp := some ⟨0, false⟩ } := by
  simp [State.beginAccess, h, State.answer]

theorem beginAccess_plain {i : Instr} (h : commandOf i = none) (s : State) : s.beginAccess i = s := by
  simp [State.beginAccess, h]

theorem acceptLater_plain {i : Instr} (h : commandOf i = none) (s : State) : s.acceptLater i = none := by
  simp [State.acceptLater, h]

/-- A record is kept exactly of a command whose check passes and whose latency is not 0. -/
theorem acceptLater_eq_some {i : Instr} {s : State} {f : InFlight} (h : s.acceptLater i = some f) :
    commandOf i = some (f.op, f.dst) ∧ f.ops = s.sample ∧ f.left = latency s.cfg f.op ∧ f.left ≠ 0 ∧
      (f.result s.cfg).isError = false := by
  unfold State.acceptLater at h
  split at h
  · cases h
  · rename_i op d hc
    split at h
    · cases h
    · rename_i hn
      cases h
      push Not at hn
      exact ⟨hc, rfl, rfl, hn.1, by simpa [InFlight.result] using hn.2⟩

/-- No record is kept of a command of latency 0 and of one whose check fails. -/
theorem acceptLater_eq_none {i : Instr} {op : Opcode} {d : Dst} {s : State}
    (hc : commandOf i = some (op, d)) (h : s.acceptLater i = none) :
    latency s.cfg op = 0 ∨ (commandResult s.cfg.mulAlg op d s.sample).isError = true := by
  simp only [State.acceptLater, hc] at h
  split at h
  · assumption
  · cases h

end Sys2Proof.Machine
end

