-- ==== Sys2Proof/Laws/Step.lean ====
section
/-! SUPPORT. What one step can do, said once (`step_cases`); every rule of the whole machine is a case
analysis over it. -/

namespace Sys2Proof.Machine

/-- Every instruction has one of two shapes: a command, or a plain access. -/
theorem exec_plain_rd (off : BitVec 6) (s : State) :
    exec (.rd off) s =
      .next { s with resp := some ((s.busRead off).elim ⟨0, true⟩ fun w => ⟨w, false⟩) } := by
  show execRd off s = _
  unfold execRd
  cases s.busRead off <;> rfl

/-- A write that is no submission stores its word, or is a bus error. -/
theorem exec_plain_wr {off : BitVec 6} (h : off ≠ cmdOffset) (v : Word) (s : State) :
    exec (.wr off v) s =
      .next ((s.busWrite off v).elim s.raiseBusError fun t => t.answer 0) := by
  show execWr off v s = _
  unfold execWr
  cases s.busWrite off v <;> simp [h]

/-- A CMD write stores its word and submits it. -/
theorem exec_cmd_wr (v : Word) (s : State) :
    exec (.wr cmdOffset v) s =
      .next (({ s with cmd := v, resp := some ⟨0, false⟩ } : State).submit v) := rfl

theorem busy_eq_false {s : State} : s.busy = false ↔ s.inflight = none := by
  simp [State.busy]

/-- `ready`, spelled out: no command is in flight, or the access is a read of STATUS. -/
theorem ready_iff {s : State} {p : PortAccess} :
    s.ready p = true ↔ s.busy = false ∨ (p.we = false ∧ p.addr = statusOffset) := by
  simp [State.ready]

theorem decodePort_statusRead {p : PortAccess} (hw : p.we = false) (ha : p.addr = statusOffset) :
    decodePort p = .rd statusOffset := by
  simp [decodePort, hw, ha]

theorem busRead_status (s : State) : s.busRead statusOffset = some s.status := rfl

/-- What a plain access leaves alone, and what S and CMD can become by one: the frame of R80. -/
theorem exec_plain_frame {p : PortAccess} {s t : State} (hc : commandOf (decodePort p) = none)
    (h : exec (decodePort p) s = .next t) :
    t.r = s.r ∧ t.bit = s.bit ∧ t.inflight = s.inflight ∧ t.cfg = s.cfg ∧ t.inputs = s.inputs ∧
      t.resetSeen = s.resetSeen ∧
      (t.s = s.s ∨ (p.we = true ∧ p.addr = 24 ∧ t.s = p.wdata)) ∧
      (t.cmd = s.cmd ∨ (p.we = true ∧ p.addr = cmdOffset ∧ t.cmd = p.wdata)) := by
  have hp := decodePort_plain hc
  by_cases hw : p.we = true
  · rw [if_pos hw] at hp
    by_cases ha : p.addr = cmdOffset
    · rw [hp, ha, exec_cmd_wr] at h
      cases h
      obtain ⟨e, he⟩ := decodePort_plain_cmd hc hw ha
      simp [State.submit, he, ha, hw]
    · rw [hp, exec_plain_wr ha] at h
      cases hb : s.busWrite p.addr p.wdata with
      | none => rw [hb] at h; cases h; simp
      | some u =>
        rw [hb] at h; cases h
        obtain ⟨h1, h2, -, h4, h5, h6, -, h8, h9, h10⟩ := busWrite_frame hb
        exact ⟨h1, h2, h4, h5, h6, h8, h9.imp id fun ⟨a, b⟩ => ⟨hw, a, b⟩,
          h10.imp id fun ⟨a, b⟩ => ⟨hw, a, b⟩⟩
  · rw [if_neg hw] at hp
    rw [hp, exec_plain_rd] at h; cases h; simp

/-- No instruction touches the command in flight, the parameters, the queue or `resetSeen`. -/
theorem exec_frame {p : PortAccess} {s t : State} (h : exec (decodePort p) s = .next t) :
    t.inflight = s.inflight ∧ t.cfg = s.cfg ∧ t.inputs = s.inputs ∧ t.resetSeen = s.resetSeen := by
  cases hc : commandOf (decodePort p) with
  | some x => rw [exec_command (op := x.1) (d := x.2) hc] at h; cases h; simp
  | none =>
    obtain ⟨-, -, h1, h2, h3, h4, -⟩ := exec_plain_frame hc h
    exact ⟨h1, h2, h3, h4⟩

/-- Everything an edge can do. -/
theorem step_cases {s t : State} (h : step s = .next t) :
    ((s.inputs = [] ∨ ∃ rest, s.inputs = .idle :: rest) ∧
      t = ({ s with inputs := s.inputs.tail } : State).edgeWithoutAccess) ∨
    (∃ rest, s.inputs = .reset :: rest ∧ t = ({ s with inputs := rest } : State).resetEdge) ∨
    (∃ hst rest p, s.inputs = .access hst :: rest ∧ s.present hst = .ok p ∧
      ((s.ready p = false ∧ t = s.edgeWithoutAccess) ∨
       (s.busy = true ∧ p.we = false ∧ p.addr = statusOffset ∧
         t = (({ s with inputs := rest } : State).answer s.status).tick) ∨
       (s.busy = false ∧ ∃ f,
         (({ s with inputs := rest } : State).beginAccess (decodePort p)).acceptLater (decodePort p) =
           some f ∧
         t = { ({ s with inputs := rest } : State).beginAccess (decodePort p) with
           inflight := some f }) ∨
       (s.busy = false ∧
         (({ s with inputs := rest } : State).beginAccess (decodePort p)).acceptLater (decodePort p) =
           none ∧
         exec (decodePort p) (({ s with inputs := rest } : State).beginAccess (decodePort p)) =
           .next t))) := by
  unfold step at h
  split at h
  · rename_i hi; cases h
    exact .inl ⟨.inl hi, by cases s; simp only at hi; subst hi; rfl⟩
  · rename_i rest hi; cases h
    exact .inl ⟨.inr ⟨rest, hi⟩, by simp [hi]⟩
  · rename_i rest hi; cases h
    exact .inr (.inl ⟨rest, hi, rfl⟩)
  · rename_i hst rest hi
    split at h
    · cases h
    · rename_i p hp
      refine .inr (.inr ⟨hst, rest, p, hi, hp, ?_⟩)
      split at h
      · rename_i hr
        by_cases hb : s.busy = true
        · obtain ⟨hw, ha⟩ := (ready_iff.mp hr).resolve_left (by simp [hb])
          rw [decodePort_statusRead hw ha] at h
          have e : perform (.rd statusOffset) { s with inputs := rest } =
              .next (({ s with inputs := rest } : State).answer s.status) := rfl
          rw [e] at h
          simp only [hb, if_true, Host.Outcome.next.injEq] at h
          exact .inr (.inl ⟨hb, hw, ha, h.symm⟩)
        · have hb : s.busy = false := by simpa using hb
          simp only [perform] at h
          cases hl : (({ s with inputs := rest } : State).beginAccess (decodePort p)).acceptLater
            (decodePort p) with
          | some f =>
            rw [hl] at h
            simp [hb] at h
            exact .inr (.inr (.inl ⟨hb, f, rfl, h.symm⟩))
          | none =>
            rw [hl] at h
            refine .inr (.inr (.inr ⟨hb, rfl, ?_⟩))
            simp only at h
            split at h
            · rename_i u hu
              rw [hu]
              simpa [hb] using h
            · cases h
            · cases h
      · rename_i hr
        cases h
        exact .inl ⟨by simpa using hr, rfl⟩

/-- While a command is in flight, an edge that is no reset changes the queue and the port's answer at most,
and then lets the command advance. -/
theorem step_eq_tick {s t : State} {f : InFlight} (hf : s.inflight = some f)
    (hr : ∀ rest, s.inputs ≠ .reset :: rest) (h : step s = .next t) :
    ∃ ins ans, (ins = s.inputs ∨ ins = s.inputs.tail) ∧
      t = ({ s with inputs := ins, resp := ans } : State).tick := by
  have hb : s.busy = true := by simp [State.busy, hf]
  rcases step_cases h with ⟨-, rfl⟩ | ⟨rest, hi, -⟩ | ⟨hst, rest, p, hi, -, h⟩
  · exact ⟨_, _, .inr rfl, rfl⟩
  · exact absurd hi (hr rest)
  · rcases h with ⟨-, rfl⟩ | ⟨-, -, -, rfl⟩ | ⟨hn, -⟩ | ⟨hn, -⟩
    · exact ⟨_, _, .inl rfl, rfl⟩
    · exact ⟨rest, _, .inr (by rw [hi]; rfl), rfl⟩
    · rw [hb] at hn; cases hn
    · rw [hb] at hn; cases hn

/-- While a command is in flight, an edge that is no reset is a next state, if the port can carry the
access presented at it. -/
theorem step_next_of_inflight {s : State} {f : InFlight} (hf : s.inflight = some f)
    (hp : ∀ h rest, s.inputs = .access h :: rest → ∃ p, s.present h = .ok p) :
    ∃ t, step s = .next t := by
  have hb : s.busy = true := by simp [State.busy, hf]
  unfold step
  split
  · exact ⟨_, rfl⟩
  · exact ⟨_, rfl⟩
  · exact ⟨_, rfl⟩
  · rename_i h rest hi
    obtain ⟨p, hp⟩ := hp h rest hi
    simp only [hp]
    split
    · rename_i hr
      obtain ⟨hw, ha⟩ := (ready_iff.mp hr).resolve_left (by simp [hb])
      rw [decodePort_statusRead hw ha]
      exact ⟨_, rfl⟩
    · exact ⟨_, rfl⟩

/-- Once a run is over, an edge that is no reset takes at most an idle edge off the queue. -/
theorem step_of_runOver {s : State} (h : s.RunOver) (hr : ∀ rest, s.inputs ≠ .reset :: rest) :
    step s = .next { s with inputs := s.inputs.tail, resp := none } := by
  have hn : s.inflight = none := busy_eq_false.mp h.2
  unfold step
  split
  · rename_i hi
    rw [State.edgeWithoutAccess, tick_none (s := { s with resp := none }) hn]
    simp [hi]
  · rename_i rest hi
    rw [State.edgeWithoutAccess, tick_none (s := { s with inputs := rest, resp := none }) hn]
    simp [hi]
  · rename_i rest hi; exact absurd hi (hr rest)
  · rename_i hst rest hi; exact absurd (by simp [hi]) (h.1 hst)

end Sys2Proof.Machine
end

