-- ==== Sys2Proof/Tests/Slice0.lean ====
section
/-! SUPPORT. Tests on fixed values and the witnesses of the statements' hypotheses. Expected results are
the spec's: 30_encoding R121 for words, 95_test_vectors section 2 for results. -/

namespace Sys2Proof.Tests

open Sys2Proof.Machine

/-! ## Helpers -/

/-- One projection of a next state; none where the outcome is a fault or a refusal. -/
def get {α : Type} (f : State → α) (o : Outcome) : Option α :=
  match o with
  | .next t => some (f t)
  | .fault _ => none
  | .refused _ => none

/-- The refusal of an outcome. -/
def refusal (o : Outcome) : Option Refusal :=
  match o with
  | .next _ => none
  | .fault _ => none
  | .refused r => some r

/-- The reset state with operands in A, B and S. -/
def operands (a b : Value) (s : Word) : State := { State.reset with a := a, b := b, s := s }

/-- The reset state with a string in the buffer and a character count. -/
def text (cs : List Byte) (n : BitVec 7) : State :=
  { State.reset with hexbuf := fillHexBuf cs, hexlen := n }

/-- A block whose commands take two cycles. -/
def slow : Config :=
  { Config.atReset with
    latLdi := 2, latHexdec := 2, latHexsh := 2, latHexenc := 2, latBtst := 2, latAdd := 2
    latNeg := 2, latSub := 2, latShl := 2, latMul := 2 }

/-- An access to offset `off` as a host of this block presents it. -/
def hostAccess (we : Bool) (off : BitVec 6) (v : Word) : HostAccess :=
  fromPort Config.atReset { we := we, addr := off, wdata := v }

/-- `s` with one access presented. -/
def presenting (s : State) (we : Bool) (off : BitVec 6) (v : Word) : State :=
  { s with inputs := [.access (hostAccess we off v)] }

/-- ADD with DST = R in flight over A = 5 and B = 3, with `n` cycles left. -/
def adding (n : Nat) : State :=
  let s := { operands 5 3 0 with cfg := slow }
  { s with inflight := some { op := .add, dst := .r, ops := s.sample, left := n } }

/-- `btst` in flight over A = 5 and S = 2, with one cycle left. -/
def testing : State :=
  let s := { operands 5 0 2 with cfg := slow }
  { s with inflight := some { op := .btst, dst := .r, ops := s.sample, left := 1 } }

/-! ## Well-formedness: the one check refuses its ill-formed term -/

theorem test_wf_refuses_command_spelled_as_write : wellFormed (.wr 25 0x16) = false := by decide
theorem test_wf_illegal_word_to_cmd : wellFormed (.wr 25 0x36) = true := by decide
theorem test_wf_same_word_elsewhere : wellFormed (.wr 24 0x16) = true := by decide
theorem test_wf_command : wellFormed (.add .a) = true := by decide

/-! ## Decoding: words written out from R111 to R113 and R121 -/

theorem test_decode_ldi : decodeTableWord 32 0b010001 = some (.ldi .a) := by decide
theorem test_decode_hexdec : decodeTableWord 32 0b100010 = some (.hexdec .b) := by decide
theorem test_decode_hexsh : decodeTableWord 32 0b010011 = some (.hexsh .a) := by decide
theorem test_decode_hexenc : decodeTableWord 32 0b000100 = some .hexenc := by decide
theorem test_decode_btst : decodeTableWord 32 0b000101 = some .btst := by decide
theorem test_decode_add : decodeTableWord 32 0b000110 = some (.add .r) := by decide
theorem test_decode_neg : decodeTableWord 32 0b100111 = some (.neg .b) := by decide
theorem test_decode_sub : decodeTableWord 32 0b011000 = some (.sub .a) := by decide
theorem test_decode_shl : decodeTableWord 32 0b101001 = some (.shl .b) := by decide
theorem test_decode_mul : decodeTableWord 32 0b001010 = some (.mul .r) := by decide
theorem test_decode_read : decodePort { we := false, addr := 0b011010, wdata := 0 } = .rd 26 := by decide
theorem test_decode_write : decodePort { we := true, addr := 0b011000, wdata := 5 } = .wr 24 5 := by decide
theorem test_decode_table_read : decodeTableWord 0 0 = some (.rd 0) := by decide

/-- 95_test_vectors section 2.1: the illegal words, each refused by the name of what is wrong. -/
theorem test_decode_illegal_words :
    decodeCommand 0x00000000 = .error .reservedOpcode ∧ decodeCommand 0x0000000B = .error .reservedOpcode ∧
    decodeCommand 0x0000000F = .error .reservedOpcode ∧ decodeCommand 0x00000036 = .error .reservedDst ∧
    decodeCommand 0x00000014 = .error .dstNotZero ∧ decodeCommand 0x00000025 = .error .dstNotZero ∧
    decodeCommand 0x00000046 = .error .reservedBits ∧ decodeCommand 0x80000001 = .error .reservedBits := by
  decide

/-! ## Instructions (95_test_vectors sections 2.2 to 2.6) -/

theorem test_ldi : get (·.r) (exec (.ldi .r) (operands 7 7 0xFFFFFFFF)) = some 0xFFFFFFFF := by decide

/-- "1A2g3": the invalid character keeps position 1. -/
theorem test_hexdec_invalid_character :
    get (·.a) (exec (.hexdec .a) (text [0x31, 0x41, 0x32, 0x67, 0x33] 5)) = some 0x1a203 := by decide +kernel
/-- "9" and 64 characters "1": the leading character is discarded. -/
theorem test_hexdec_truncates :
    get (·.a) (exec (.hexdec .a) (text (0x39 :: List.replicate 64 0x31) 65)) =
      some 0x1111111111111111111111111111111111111111111111111111111111111111 := by decide +kernel

theorem test_hexsh_top_nibble_lost :
    get (·.a) (exec (.hexsh .a)
      (operands 0xF000000000000000000000000000000000000000000000000000000000000000 0 0x61)) = some 0xa := by
  decide
theorem test_hexsh_ignores_high_bits :
    get (fun t => (t.r, t.a)) (exec (.hexsh .r) (operands 0x12 0 0x12345641)) = some (0x12a, 0x12) := by decide

theorem test_hexenc_inner_zero :
    get (fun t => (hexWord t.hexbuf 0, hexWord t.hexbuf 1, t.hexlen)) (exec .hexenc (operands 0x1a203 0 0)) =
      some (0x30326131, 0x00000033, 5) := by decide +kernel
theorem test_hexenc_zero :
    get (fun t => (hexWord t.hexbuf 0, t.hexlen)) (exec .hexenc (operands 0 0 0)) = some (0x30, 1) := by
  decide +kernel

theorem test_btst : get (·.bit) (exec .btst (operands 0x1a203 0 16)) = some true := by decide +kernel
theorem test_btst_guarded :
    get (fun t => (t.bit, t.err)) (exec .btst (operands (-1) 0 256)) = some (false, .noError) := by decide +kernel

theorem test_add_carries_into_word_1 :
    get (fun t => (word t.r 0, word t.r 1)) (exec (.add .r) (operands 0xFFFFFFFF 1 0)) = some (0, 1) := by
  decide +kernel
theorem test_add_wraps : get (·.a) (exec (.add .a) (operands (-1) 1 0)) = some 0 := by decide +kernel

theorem test_neg_borrows_up :
    get (fun t => (word t.r 0, word t.r 1, word t.r 7)) (exec (.neg .r) (operands 0x100000000 0 0)) =
      some (0, 0xFFFFFFFF, 0xFFFFFFFF) := by decide +kernel
theorem test_neg_zero : get (·.b) (exec (.neg .b) (operands 0 9 0)) = some 0 := by decide +kernel

theorem test_sub_wraps :
    get (·.r) (exec (.sub .r) (operands 3 5 0)) =
      some 0xfffffffffffffffffffffffffffffffffffffffffffffffffffffffffffffffe := by decide +kernel
theorem test_sub : get (·.b) (exec (.sub .b) (operands 5 3 0)) = some 2 := by decide +kernel

theorem test_shl_across_words :
    get (fun t => (word t.r 0, word t.r 1)) (exec (.shl .r) (operands 0x80000001 0 31)) =
      some (0x80000000, 0x40000000) := by decide +kernel
theorem test_shl_range :
    get (fun t => (t.r, t.err)) (exec (.shl .r) (operands 1 0 256)) = some (0, .shiftRange) := by decide +kernel

theorem test_mul_high_part_lost :
    get (·.r) (exec (.mul .r)
      (operands 0x123456789abcdef0123456789abcdef0123456789abcdef0123456789abcdef0 0x10 0)) =
      some 0x23456789abcdef0123456789abcdef0123456789abcdef0123456789abcdef00 := by decide +kernel
theorem test_mul_booth :
    get (·.r) (exec (.mul .r)
      { operands 0xffffffffffffffff 0xffffffffffffffff 0 with cfg := { slow with mulAlg := .booth } }) =
      some 0xfffffffffffffffe0000000000000001 := by decide +kernel

theorem test_rd_unmapped :
    get (·.resp) (exec (.rd 28) State.reset) = some (some { rdata := 0, err := true }) := by decide
theorem test_rd_status :
    get (·.resp) (exec (.rd 26) { State.reset with bit := true, err := .hexlenRange }) =
      some (some { rdata := 0x32, err := false }) := by decide
theorem test_wr_hexlen_keeps_7_bits :
    get (·.hexlen) (exec (.wr 27 0xFFFFFFFF) State.reset) = some 127 := by decide
theorem test_wr_read_only :
    get (fun t => (t.r, t.resp)) (exec (.wr 16 1) State.reset) = some (0, some { rdata := 0, err := true }) := by
  decide

/-! ## Witnesses: for each statement with hypotheses, a state and operands that meet them

Named witness_<statement>[_<clause>]; a clause over a range has one at each boundary value. -/

theorem witness_decode_of_encode : wellFormed (.wr 25 0x36) = true ∧ wellFormed (.shl .b) = true := by decide

theorem witness_cmd_write_of_a_legal_word :
    (Opcode.add.writesValue = true ∨ Dst.b = .r) ∧ (Opcode.btst.writesValue = true ∨ Dst.r = .r) := by decide

/-- Each of R263's four causes holds of a word that none of the other three holds of. -/
theorem witness_illegal_word :
    (0x46 : Word).toNat / 64 ≠ 0 ∧ (0x80000001 : Word).toNat / 64 ≠ 0 ∧
    (0x00 : Word).toNat % 16 ∈ [0x0, 0xB, 0xC, 0xD, 0xE, 0xF] ∧
    (0x0B : Word).toNat % 16 ∈ [0x0, 0xB, 0xC, 0xD, 0xE, 0xF] ∧ (0x36 : Word).toNat / 16 % 4 = 3 ∧
    ((0x14 : Word).toNat % 16 ∈ [0x4, 0x5] ∧ (0x14 : Word).toNat / 16 % 4 ≠ 0) ∧
    ((0x25 : Word).toNat % 16 ∈ [0x4, 0x5] ∧ (0x25 : Word).toNat / 16 % 4 ≠ 0) := by decide

/-- An access at the head of the queue, presented, with the port free. -/
theorem witness_step_runs_the_decoded_instruction :
    let s := presenting (operands 5 3 0) true 25 0x06
    s.inputs = .access (hostAccess true 25 0x06) :: [] ∧
      s.present (hostAccess true 25 0x06) = .ok ⟨true, 25, 0x06⟩ ∧ s.busy = false := ⟨rfl, rfl, rfl⟩

theorem witness_latency_zero :
    let s := presenting (operands 5 3 0) true 25 0x06
    s.inputs = .access (hostAccess true 25 0x06) :: [] ∧
      s.present (hostAccess true 25 0x06) = .ok ⟨true, 25, 0x06⟩ ∧ s.busy = false ∧
      commandOf (decodePort ⟨true, 25, 0x06⟩) = some (.add, .r) ∧ latency s.cfg .add = 0 :=
  ⟨rfl, rfl, rfl, rfl, rfl⟩

/-- An illegal word, whatever the latency. -/
theorem witness_rejected_illegal :
    let s := presenting { operands 5 3 0 with cfg := slow } true 25 0x36
    s.inputs = .access (hostAccess true 25 0x36) :: [] ∧
      s.present (hostAccess true 25 0x36) = .ok ⟨true, 25, 0x36⟩ ∧ s.busy = false ∧
      cmdOffset = 25 ∧ legal 0x36 = false := ⟨rfl, rfl, rfl, rfl, rfl⟩
/-- SHL at the least shift amount out of range. -/
theorem witness_rejected_shl :
    let s := presenting { operands 5 3 256 with cfg := slow } true 25 0x19
    s.inputs = .access (hostAccess true 25 0x19) :: [] ∧
      s.present (hostAccess true 25 0x19) = .ok ⟨true, 25, 0x19⟩ ∧ s.busy = false ∧
      decodePort ⟨true, 25, 0x19⟩ = .shl .a ∧ s.s.toNat > 255 := ⟨rfl, rfl, rfl, rfl, by decide⟩
/-- HEXDEC at the least HEXLEN out of range. -/
theorem witness_rejected_hexdec :
    let s := presenting { text [] 69 with cfg := slow } true 25 0x12
    s.inputs = .access (hostAccess true 25 0x12) :: [] ∧
      s.present (hostAccess true 25 0x12) = .ok ⟨true, 25, 0x12⟩ ∧ s.busy = false ∧
      decodePort ⟨true, 25, 0x12⟩ = .hexdec .a ∧ s.hexlen.toNat > 68 := ⟨rfl, rfl, rfl, rfl, by decide⟩

theorem witness_accepted_shl_at_255 :
    let s := presenting { operands 5 3 255 with cfg := slow } true 25 0x19
    s.inputs = .access (hostAccess true 25 0x19) :: [] ∧
      s.present (hostAccess true 25 0x19) = .ok ⟨true, 25, 0x19⟩ ∧ s.busy = false ∧
      commandOf (decodePort ⟨true, 25, 0x19⟩) = some (.shl, .a) ∧ latency s.cfg .shl ≠ 0 ∧
      s.s.toNat ≤ 255 := ⟨rfl, rfl, rfl, rfl, by decide, by decide⟩
theorem witness_accepted_hexdec_at_68 :
    let s := presenting { text [] 68 with cfg := slow } true 25 0x12
    s.inputs = .access (hostAccess true 25 0x12) :: [] ∧
      s.present (hostAccess true 25 0x12) = .ok ⟨true, 25, 0x12⟩ ∧ s.busy = false ∧
      commandOf (decodePort ⟨true, 25, 0x12⟩) = some (.hexdec, .a) ∧ latency s.cfg .hexdec ≠ 0 ∧
      s.hexlen.toNat ≤ 68 := ⟨rfl, rfl, rfl, rfl, by decide, by decide⟩

/-- The queue of a command with two cycles left (k = 1): a STATUS read, then an access that waits. -/
theorem witness_command_completes_while_polled :
    let s := { adding 2 with inputs := [.access (hostAccess false 26 0), .access (hostAccess false 16 0)] }
    (∃ f, s.inflight = some f ∧ f.left = 1 + 1) ∧
      ∀ i ∈ s.inputs.take 2, i ≠ .reset ∧ ∀ h, i = .access h → ∃ p, s.present h = .ok p := by
  refine ⟨⟨_, rfl, rfl⟩, ?_⟩
  intro i hi
  simp only [List.take_succ_cons, List.take_zero, List.mem_cons, List.not_mem_nil, or_false] at hi
  rcases hi with rfl | rfl
  · exact ⟨by simp, fun h e => by cases e; exact ⟨⟨false, 26, 0⟩, rfl⟩⟩
  · exact ⟨by simp, fun h e => by cases e; exact ⟨⟨false, 16, 0⟩, rfl⟩⟩
/-- One cycle left (k = 0), a reset only after it, and nothing presented at all. -/
theorem witness_command_completes_at_its_last_cycle :
    let s := { adding 1 with inputs := [.idle, .reset] }
    (∃ f, s.inflight = some f ∧ f.left = 0 + 1) ∧
      (∀ i ∈ s.inputs.take 1, i ≠ .reset ∧ ∀ h, i = .access h → ∃ p, s.present h = .ok p) ∧
      (adding 1).inputs = [] := by
  refine ⟨⟨_, rfl, rfl⟩, ?_, rfl⟩
  intro i hi
  simp only [List.take_succ_cons, List.take_zero, List.mem_cons, List.not_mem_nil, or_false] at hi
  subst hi
  exact ⟨by simp, fun h e => by cases e⟩

/-- A command with two cycles left, and with one, at an edge at which a STATUS read completes. -/
theorem witness_command_advances_while_polled :
    (∃ f, (presenting (adding 2) false 26 0).inflight = some f ∧ 2 ≤ f.left) ∧
    (∃ f, (presenting (adding 1) false 26 0).inflight = some f ∧ f.left = 1) ∧
    (∀ rest, (presenting (adding 2) false 26 0).inputs ≠ .reset :: rest) ∧
    (∀ rest, (presenting (adding 1) false 26 0).inputs ≠ .reset :: rest) ∧
    get (fun t => t.inflight.map (·.left)) (step (presenting (adding 2) false 26 0)) = some (some 1) ∧
    get (fun t => (t.inflight.map (·.left), t.r)) (step (presenting (adding 1) false 26 0)) = some (none, 8) :=
  ⟨⟨_, rfl, by decide⟩, ⟨_, rfl, rfl⟩, fun _ h => by simp [presenting] at h,
    fun _ h => by simp [presenting] at h, by decide +kernel, by decide +kernel⟩
/-- The same at an idle edge. -/
theorem witness_command_advances_at_an_idle_edge :
    (∀ rest, ({ adding 2 with inputs := [.idle] } : State).inputs ≠ .reset :: rest) ∧
    get (fun t => t.inflight.map (·.left)) (step { adding 2 with inputs := [.idle] }) = some (some 1) :=
  ⟨fun _ h => by simp at h, by decide +kernel⟩

/-- A read of R.w[0] waits with two cycles left, and with one. -/
theorem witness_wait_rule_waits :
    (∃ f, (presenting (adding 2) false 16 0).inflight = some f ∧ 2 ≤ f.left) ∧
    (∃ f, (presenting (adding 1) false 16 0).inflight = some f ∧ f.left = 1) ∧
    (presenting (adding 2) false 16 0).inputs = .access (hostAccess false 16 0) :: [] ∧
    (presenting (adding 2) false 16 0).present (hostAccess false 16 0) = .ok ⟨false, 16, 0⟩ ∧
    ¬ isStatusRead ⟨false, 16, 0⟩ :=
  ⟨⟨_, rfl, by decide⟩, ⟨_, rfl, rfl⟩, rfl, rfl, by simp [isStatusRead, statusOffset]⟩
/-- A write of STATUS is no read of STATUS, so it waits too. -/
theorem witness_wait_rule_status_write : ¬ isStatusRead ⟨true, 26, 0⟩ := by simp [isStatusRead]
/-- A read of STATUS completes with two cycles left, and at the very edge at which the command completes. -/
theorem witness_wait_rule_status_read :
    (∃ f, (presenting (adding 2) false 26 0).inflight = some f ∧ 2 ≤ f.left) ∧
    (presenting (adding 2) false 26 0).inputs = .access (hostAccess false 26 0) :: [] ∧
    (presenting (adding 2) false 26 0).present (hostAccess false 26 0) = .ok ⟨false, 26, 0⟩ ∧
    (∃ f, (presenting (adding 1) false 26 0).inflight = some f ∧ f.left = 1) ∧
    (presenting (adding 1) false 26 0).inputs = .access (hostAccess false 26 0) :: [] ∧
    (presenting (adding 1) false 26 0).present (hostAccess false 26 0) = .ok ⟨false, 26, 0⟩ ∧
    isStatusRead ⟨false, 26, 0⟩ :=
  ⟨⟨_, rfl, by decide⟩, rfl, rfl, ⟨_, rfl, rfl⟩, rfl, rfl, rfl, rfl⟩

/-- Reset while a command is in flight. -/
theorem witness_reset_edge :
    let s := { adding 2 with inputs := [.reset] }
    s.inputs = .reset :: [] ∧ s.busy = true := ⟨rfl, rfl⟩

theorem witness_access_before_reset :
    let s := { presenting State.reset false 0 0 with resetSeen := false }
    s.resetSeen = false ∧ s.inputs = .access (hostAccess false 0 0) :: [] := ⟨rfl, rfl⟩
theorem witness_first_reset :
    let s := { State.reset with resetSeen := false, inputs := [.reset] }
    s.inputs = .reset :: [] := rfl

/-- A byte access, and a word access at an odd address. -/
theorem witness_non_word_access :
    let narrow : HostAccess := { we := false, addr := 0, bytes := 1, wdata := 0 }
    let odd : HostAccess := { we := false, addr := 1, bytes := 4, wdata := 0 }
    let s := { State.reset with inputs := [.access narrow] }
    let t := { State.reset with inputs := [.access odd] }
    s.inputs = .access narrow :: [] ∧ s.resetSeen = true ∧ narrow.bytes ≠ 4 ∧
      t.inputs = .access odd :: [] ∧ t.resetSeen = true ∧ odd.bytes = 4 ∧ odd.addr % 4 ≠ 0 := by
  exact ⟨rfl, rfl, by decide, rfl, rfl, rfl, by decide⟩

/-- Both sides at the window's first and last word, and neither just outside. -/
theorem witness_window_addresses :
    let c := { Config.atReset with window := 1 }
    let s := { State.reset with cfg := c }
    s.resetSeen = true ∧
      s.present { we := false, addr := 256, bytes := 4, wdata := 0 } = .ok ⟨false, 0, 0⟩ ∧
      s.present { we := false, addr := 508, bytes := 4, wdata := 0 } = .ok ⟨false, 63, 0⟩ ∧
      s.present { we := false, addr := 252, bytes := 4, wdata := 0 } = .error .accessOutsideWindow ∧
      s.present { we := false, addr := 512, bytes := 4, wdata := 0 } = .error .accessOutsideWindow :=
  ⟨rfl, rfl, rfl, rfl, rfl⟩

/-- Reads of each register's first and last offset: the clauses of the read rule do not overlap. -/
theorem witness_read_offsets :
    windowReg 0 = .a 0 ∧ windowReg 7 = .a 7 ∧ windowReg 8 = .b 0 ∧ windowReg 15 = .b 7 ∧
    windowReg 16 = .r 0 ∧ windowReg 23 = .r 7 ∧ windowReg 27 = .hexlen ∧ windowReg 32 = .hexbuf 0 ∧
    windowReg 48 = .hexbuf 16 := by decide

/-- The bounds of the bus errors, from both sides. -/
theorem witness_bus_errors :
    windowReg 27 ≠ .unmapped ∧ windowReg 28 = .unmapped ∧ windowReg 31 = .unmapped ∧
    windowReg 32 ≠ .unmapped ∧ windowReg 48 ≠ .unmapped ∧ windowReg 49 = .unmapped ∧
    windowReg 63 = .unmapped := by decide

theorem witness_write_leaves_every_other_offset :
    (27 : BitVec 6) ≠ cmdOffset ∧ (63 : BitVec 6) ≠ 27 ∧ (0 : BitVec 6) ≠ cmdOffset ∧ (1 : BitVec 6) ≠ 0 := by
  decide

theorem witness_eight_word_writes :
    [7, 0, 3, 1, 6, 2, 5, 4].Perm (List.finRange 8) := by decide

/-- Each class of bytes at its bounds, and the invalid characters next to them. -/
theorem witness_nib :
    (nib 0x30).toNat = 0 ∧ (nib 0x39).toNat = 9 ∧ (nib 0x61).toNat = 10 ∧ (nib 0x66).toNat = 15 ∧
    (nib 0x41).toNat = 10 ∧ (nib 0x46).toNat = 15 ∧ nib 0x2F = 0 ∧ nib 0x3A = 0 ∧ nib 0x40 = 0 ∧
    nib 0x47 = 0 ∧ nib 0x60 = 0 ∧ nib 0x67 = 0 ∧ nib 0x00 = 0 ∧ nib 0xFF = 0 := by decide

theorem witness_hexdec_at_68_and_69 :
    (text [] 68).hexlen.toNat ≤ 68 ∧ 68 < (text [] 69).hexlen.toNat := by decide

/-- Two states that differ in A and in byte 1 of the buffer, with HEXLEN = 1. -/
theorem witness_hexdec_reads_only_its_bytes :
    let s := text [0x31, 0x32] 1
    let s' := { text [0x31] 1 with a := 9 }
    s.hexlen = s'.hexlen ∧ s.hexlen.toNat ≤ 68 ∧ s.hexbuf ≠ s'.hexbuf ∧
      ∀ k : Fin 68, k.val < s.hexlen.toNat → s.hexbuf[k] = s'.hexbuf[k] := by decide +kernel

theorem witness_round_trip_of_any_string : (text [0x30, 0x41] 2).hexlen.toNat ≤ 68 := by decide

theorem witness_fmt_zero_and_not_zero : (0 : Value) = 0 ∧ (0x10 : Value) ≠ 0 := by decide

theorem witness_shl_at_255_and_256 :
    (operands 1 0 255).s.toNat ≤ 255 ∧ 255 < (operands 1 0 256).s.toNat := by decide

theorem witness_command_of : commandOf (.mul .b) = some (.mul, .b) ∧ commandOf .btst = some (.btst, .r) := by
  decide

/-- BIT changes at the completing edge of a `btst` in flight. -/
theorem witness_bit_changes : get (·.bit) (step testing) = some true ∧ testing.bit = false := by
  decide +kernel
/-- BIT changes at the accepting edge of a `btst` of latency 0. -/
theorem witness_bit_changes_at_once :
    get (·.bit) (step (presenting (operands 5 0 2) true 25 0x05)) = some true := by decide +kernel
/-- BIT changes by reset. -/
theorem witness_bit_changes_by_reset :
    get (·.bit) (step { State.reset with bit := true, inputs := [.reset] }) = some false := by decide +kernel

theorem witness_s_changes :
    get (·.s) (step (presenting State.reset true 24 5)) = some 5 ∧
      ∀ rest, (presenting State.reset true 24 5).inputs ≠ .reset :: rest :=
  ⟨by decide +kernel, fun _ h => by simp [presenting] at h⟩
theorem witness_cmd_changes :
    get (·.cmd) (step (presenting State.reset true 25 0x36)) = some 0x36 ∧
      ∀ rest, (presenting State.reset true 25 0x36).inputs ≠ .reset :: rest :=
  ⟨by decide +kernel, fun _ h => by simp [presenting] at h⟩

/-- R changes at the completing edge of an ADD in flight, and at once where ADD has latency 0. -/
theorem witness_r_changes :
    get (·.r) (step (adding 1)) = some 8 ∧
      get (·.r) (step (presenting (operands 5 3 0) true 25 0x06)) = some 8 := by decide +kernel

theorem witness_stays_busy :
    (adding 2).busy = true ∧ get State.busy (step (adding 2)) = some true := by decide +kernel

/-- A state with a command in flight meets the invariant, and steps. -/
theorem witness_invariant : (adding 2).Inv ∧ get (fun t => t.inflight.map (·.left)) (step (adding 2)) = some (some 1) := by
  refine ⟨?_, by decide +kernel⟩
  intro f h
  cases h
  exact ⟨rfl, by decide, by decide, rfl, .inl rfl⟩

theorem witness_waiting_access :
    (presenting (adding 2) false 16 0).Inv ∧
    (presenting (adding 2) false 16 0).inputs = .access (hostAccess false 16 0) :: [] ∧
    (presenting (adding 2) false 16 0).present (hostAccess false 16 0) = .ok ⟨false, 16, 0⟩ := by
  refine ⟨?_, rfl, rfl⟩
  intro f h
  cases h
  exact ⟨rfl, by decide, by decide, rfl, .inl rfl⟩

/-- A program of three accesses, none of them a read of STATUS, on a block of latency 2; and the same
program for a second block with another window and other latencies. -/
theorem witness_timed_run :
    let ps : List PortAccess := [⟨true, 24, 5⟩, ⟨true, 25, 0x11⟩, ⟨false, 0, 0⟩]
    let s := { State.reset with cfg := slow, inputs := program slow ps }
    let c := { Config.atReset with window := 3 }
    s.inflight = none ∧ s.resetSeen = true ∧ s.inputs = program s.cfg ps ∧ (∀ p ∈ ps, ¬ isStatusRead p) ∧
      c ≠ s.cfg := by
  refine ⟨rfl, rfl, rfl, ?_, by decide⟩
  intro p hp
  simp only [List.mem_cons, List.not_mem_nil, or_false] at hp
  rcases hp with rfl | rfl | rfl <;> simp [isStatusRead, statusOffset]

/-- After the last access an idle edge and a reset are still to come: the run is over, and stays so for the one
edge that is no reset. -/
theorem witness_run_over :
    ({ operands 5 0 0 with inputs := [.idle, .reset] } : State).RunOver ∧
    Input.reset ∉ ({ operands 5 0 0 with inputs := [.idle, .reset] } : State).inputs.take 1 ∧
    get (·.a) (step { operands 5 0 0 with inputs := [.idle, .reset] }) = some 5 :=
  ⟨⟨fun _ h => by simp at h, rfl⟩, by simp, by decide +kernel⟩
/-- Neither with a command in flight nor with an access left is a run over. -/
theorem witness_run_not_over : ¬ (adding 1).RunOver ∧ ¬ (presenting State.reset false 0 0).RunOver :=
  ⟨fun h => absurd h.2 (by decide), fun h => h.1 (hostAccess false 0 0) (by simp [presenting])⟩

/-! ## One step, from a state the host's word is presented in -/

/-- R303, R39: `add.r` of latency 2 goes in flight and BUSY reads 1. -/
theorem test_step_accepts :
    get (fun t => (t.busy, t.r)) (step ({ operands 5 3 0 with cfg := slow }.withFetchWord 32 0x06)) =
      some (true, 0) := by decide +kernel
/-- 95_test_vectors section 2.1: an illegal word from reset. -/
theorem test_step_illegal :
    get (fun t => (t.cmd, t.err)) (step (State.reset.withFetchWord 32 0x36)) = some (0x36, .illegalCmd) := by
  decide +kernel
theorem test_step_read : get (·.resp) (step (State.reset.withFetchWord 0 0)) = some (some ⟨0, false⟩) := by
  decide +kernel
theorem test_step_before_reset :
    refusal (step { presenting State.reset false 0 0 with resetSeen := false }) = some .accessBeforeReset := by
  decide +kernel

end Sys2Proof.Tests
end

namespace Sys2Proof.Machine

/-! ## The multipliers -/

theorem twoPow_succ (k : Nat) :
    BitVec.twoPow 256 (k + 1) = BitVec.twoPow 256 k + BitVec.twoPow 256 k := by
  rw [← BitVec.twoPow_mul_twoPow_eq, show BitVec.twoPow 256 1 = 1 + 1 from rfl, mul_add, mul_one]

/-- The value of the low `k` bits of `y`: what a multiplier has consumed after `k` bits. -/
def lowBits (y : Value) (k : Nat) : Value := (y.setWidth k).setWidth 256

@[simp] theorem lowBits_zero (y : Value) : lowBits y 0 = 0 := by
  simp [lowBits, BitVec.of_length_zero]

@[simp] theorem lowBits_width (y : Value) : lowBits y 256 = y := by simp [lowBits]

theorem lowBits_succ (y : Value) (k : Nat) :
    lowBits y (k + 1) = lowBits y k + if y.getLsbD k then BitVec.twoPow 256 k else 0 := by
  rw [lowBits, BitVec.setWidth_setWidth_succ_eq_setWidth_setWidth_add_twoPow, BitVec.and_twoPow]
  rfl

/-- After `k` bits the accumulator holds the product with those bits. -/
theorem mulShiftAdd_after (x y : Value) (k : Nat) :
    (List.range k).foldl (fun acc i => if y.getLsbD i then add256 acc (shl256 x i) false else acc) 0 =
      x * lowBits y k := by
  induction k with
  | zero => rw [lowBits_zero, mul_zero]; rfl
  | succ k ih =>
    rw [List.range_succ, List.foldl_append, ih, lowBits_succ, mul_add]
    by_cases h : y.getLsbD k <;> simp [h, add256_false, shl256_eq]

/-- The reference multiplier gives the product mod 2^256 (R231). -/
theorem mulShiftAdd_eq (x y : Value) : mulShiftAdd x y = x * y := by
  rw [mulShiftAdd, mulShiftAdd_after, lowBits_width]

/-- What radix-4 recoding still owes after `k` digits: a set bit just below position `2k` was counted as
`-2 · 4^(k-1)`, and the next digit adds its `4^k`. -/
def boothDebt (y : Value) (k : Nat) : Value :=
  if decide (0 < k) && y.getLsbD (2 * k - 1) then BitVec.twoPow 256 (2 * k) else 0

/-- The last digit's debt has weight 2^256, so nothing is owed after 128 digits. -/
theorem boothDebt_last (y : Value) : boothDebt y 128 = 0 := by
  have hp : BitVec.twoPow 256 (2 * 128) = 0 := by decide
  rw [boothDebt, hp, ite_self]

/-- Digit `k` adds the two bits of y it consumes, pays the debt below it and takes on a new one. -/
theorem add_boothTerm (x y : Value) (k : Nat) :
    x * (lowBits y (2 * k) - boothDebt y k) + boothTerm x y k =
      x * (lowBits y (2 * (k + 1)) - boothDebt y (k + 1)) := by
  have hlast : (decide (0 < k + 1) && y.getLsbD (2 * (k + 1) - 1)) = y.getLsbD (2 * k + 1) := by
    simp [Nat.mul_succ]
  rw [boothDebt, boothDebt, hlast, boothTerm, Nat.mul_succ, lowBits_succ, lowBits_succ, twoPow_succ,
    twoPow_succ]
  simp only [shl256_eq, neg256_eq, BitVec.shiftLeft_eq_mul_twoPow, twoPow_succ]
  -- one ring identity for each reading of the three bits the digit is recoded from
  cases y.getLsbD (2 * k + 1) <;> cases y.getLsbD (2 * k) <;>
    cases decide (0 < k) && y.getLsbD (2 * k - 1) <;>
    simp only [if_true, Bool.false_eq_true, if_false] <;> ring

/-- After `k` digits the accumulator holds the product with the bits consumed, less what is owed. -/
theorem mulBooth_after (x y : Value) (k : Nat) :
    (List.range k).foldl (fun acc i => add256 acc (boothTerm x y i) false) 0 =
      x * (lowBits y (2 * k) - boothDebt y k) := by
  induction k with
  | zero => simp [boothDebt]
  | succ k ih =>
    rw [List.range_succ, List.foldl_append, ih, List.foldl_cons, List.foldl_nil, add256_false,
      add_boothTerm]

/-- Radix-4 Booth recoding gives the product mod 2^256 (R231). -/
theorem mulBooth_eq (x y : Value) : mulBooth x y = x * y := by
  rw [mulBooth, mulBooth_after, boothDebt_last, lowBits_width, sub_zero]

/-- Every multiplier gives the product mod 2^256 (R231). -/
theorem mul256_eq (alg : MulAlg) (x y : Value) : mul256 alg x y = x * y := by
  cases alg with
  | shiftAndAdd => exact mulShiftAdd_eq x y
  | booth => exact mulBooth_eq x y
  | other => rfl

/-- Settles O43: all three methods give the product. -/
theorem multiplierAlgorithmsAgree : Obligations.MultiplierAlgorithmsAgree := by
  unfold Obligations.MultiplierAlgorithmsAgree
  intro x y
  simp only [mul256_eq, and_self]

/-! ## No result depends on the multiplier -/

/-- R9: MUL_ALG is no part of what a command writes. -/
theorem commandResult_mulAlg (alg alg' : MulAlg) (op : Opcode) (d : Dst) (o : Operands) :
    commandResult alg op d o = commandResult alg' op d o := by
  cases op with
  | mul => simp only [commandResult, mulResult, mul256_eq]
  | _ => rfl

/-! ## States that differ only where the block cannot see it -/

/-- Two states with the same registers and the same command in flight: they can differ in the parameters
and in the model's own fields. -/
structure State.Alike (s t : State) : Prop where
  registers : s.registers = t.registers
  inflight : s.inflight = t.inflight

theorem State.Alike.refl (s : State) : s.Alike s := ⟨rfl, rfl⟩

theorem State.Alike.eq {s t : State} (h : s.Alike t) :
    t = { s with cfg := t.cfg, inputs := t.inputs, resp := t.resp, resetSeen := t.resetSeen } := by
  obtain ⟨hr, hf⟩ := h
  simp only [State.registers, Registers.mk.injEq] at hr
  cases t
  simp [hr, hf]

theorem State.Alike.commit {s t : State} (h : s.Alike t) (w : Result) : (s.commit w).Alike (t.commit w) :=
  ⟨commit_registers_congr h.registers w, by simpa using h.inflight⟩

theorem State.Alike.busRead {s t : State} (h : s.Alike t) (off : BitVec 6) :
    s.busRead off = t.busRead off := by
  rw [h.eq]; rfl

theorem State.Alike.setCmdResp {s t : State} (h : s.Alike t) (w : Word) (x y : Option Response) :
    ({ s with cmd := w, resp := x } : State).Alike { t with cmd := w, resp := y } := by
  rw [h.eq]; exact ⟨rfl, rfl⟩

/-- A word is stored in both of two alike states or in neither, and leaves them alike. -/
theorem State.Alike.busWrite {s t : State} (h : s.Alike t) (off : BitVec 6) (v : Word) :
    (s.busWrite off v = none ∧ t.busWrite off v = none) ∨
      ∃ s' t', s.busWrite off v = some s' ∧ t.busWrite off v = some t' ∧ s'.Alike t' := by
  rw [h.eq]
  unfold State.busWrite
  cases windowReg off with
  | r => exact .inl ⟨rfl, rfl⟩
  | status => exact .inl ⟨rfl, rfl⟩
  | unmapped => exact .inl ⟨rfl, rfl⟩
  | _ => exact .inr ⟨_, _, rfl, rfl, rfl, rfl⟩

/-- Two next states, alike and with the same answer at the port. -/
def OutcomesAlike (o o' : Outcome) : Prop :=
  ∃ s t, o = .next s ∧ o' = .next t ∧ s.Alike t ∧ s.resp = t.resp

theorem exec_command_alike {i : Instr} {op : Opcode} {d : Dst} (hc : commandOf i = some (op, d))
    {s t : State} (h : s.Alike t) : OutcomesAlike (exec i (s.beginAccess i)) (exec i (t.beginAccess i)) := by
  have hb := h.setCmdResp (encodeCommand op d) (some ⟨0, false⟩) (some ⟨0, false⟩)
  rw [beginAccess_command hc, beginAccess_command hc, exec_command hc, exec_command hc,
    sample_eq_of_registers hb.registers, commandResult_mulAlg _ t.cfg.mulAlg]
  exact ⟨_, _, rfl, rfl, hb.commit _, by simp⟩

theorem exec_rd_alike (off : BitVec 6) {s t : State} (h : s.Alike t) :
    OutcomesAlike (exec (.rd off) s) (exec (.rd off) t) := by
  rw [exec_plain_rd, exec_plain_rd, h.busRead]
  exact ⟨_, _, rfl, rfl, ⟨h.registers, h.inflight⟩, rfl⟩

theorem exec_wr_alike {off : BitVec 6} (ho : off ≠ cmdOffset) (v : Word) {s t : State} (h : s.Alike t) :
    OutcomesAlike (exec (.wr off v) s) (exec (.wr off v) t) := by
  rw [exec_plain_wr ho, exec_plain_wr ho]
  rcases h.busWrite off v with ⟨hs, ht⟩ | ⟨s', t', hs, ht, h'⟩ <;> rw [hs, ht]
  · exact ⟨_, _, rfl, rfl, ⟨h.registers, h.inflight⟩, rfl⟩
  · exact ⟨_, _, rfl, rfl, ⟨h'.registers, h'.inflight⟩, rfl⟩

/-- An illegal word written to CMD raises ILLEGAL_CMD in both (R263). -/
theorem exec_illegal_cmd_wr_alike {v : Word} {e : IllegalCommand} (he : decodeCommand v = .error e)
    {s t : State} (h : s.Alike t) :
    OutcomesAlike (exec (.wr cmdOffset v) s) (exec (.wr cmdOffset v) t) := by
  have hb := h.setCmdResp v (some ⟨0, false⟩) (some ⟨0, false⟩)
  rw [exec_cmd_wr, exec_cmd_wr]
  simp only [State.submit, he]
  exact ⟨_, _, rfl, rfl, hb.commit (.error .illegalCmd), rfl⟩

/-- An access that completes in alike states leaves them alike and answers the same in both. -/
theorem exec_access_alike (p : PortAccess) {s t : State} (h : s.Alike t) :
    OutcomesAlike (exec (decodePort p) (s.beginAccess (decodePort p)))
      (exec (decodePort p) (t.beginAccess (decodePort p))) := by
  cases hc : commandOf (decodePort p) with
  | some x => exact exec_command_alike (op := x.1) (d := x.2) hc h
  | none =>
    rw [beginAccess_plain hc, beginAccess_plain hc]
    have hp := decodePort_plain hc
    by_cases hw : p.we = true
    · rw [if_pos hw] at hp
      by_cases ha : p.addr = cmdOffset
      · obtain ⟨e, he⟩ := decodePort_plain_cmd hc hw ha
        rw [hp, ha]
        exact exec_illegal_cmd_wr_alike he h
      · rw [hp]
        exact exec_wr_alike ha _ h
    · rw [if_neg hw] at hp
      rw [hp]
      exact exec_rd_alike _ h

/-! ## What a command in flight leads to -/

theorem commit_registers_inflight (s : State) (x : Option InFlight) (w : Result) :
    (({ s with inflight := x } : State).commit w).registers = (s.commit w).registers :=
  commit_registers_congr (s := { s with inflight := x }) (t := s) rfl w

/-- The registers of `s` once the command in flight, if there is one, has completed (R305). -/
def State.settled (s : State) : Registers :=
  match s.inflight with
  | none => s.registers
  | some f => (s.commit (f.result s.cfg)).registers

theorem settled_idle {s : State} (h : s.inflight = none) : s.settled = s.registers := by
  simp [State.settled, h]

theorem settled_inflight {s : State} {f : InFlight} (h : s.inflight = some f) :
    s.settled = (s.commit (f.result s.cfg)).registers := by
  simp [State.settled, h]

theorem settled_congr {s t : State} (h : s.Alike t) (hcfg : s.cfg = t.cfg) :
    s.settled = t.settled := by
  cases hf : t.inflight with
  | none => rw [settled_idle hf, settled_idle (h.inflight.trans hf), h.registers]
  | some f =>
    rw [settled_inflight hf, settled_inflight (h.inflight.trans hf), hcfg,
      commit_registers_congr h.registers]

/-- The queue and the port's answer do not matter to what a command in flight leaves. -/
theorem settled_inputs_resp (s : State) (ins : List Input) (ans : Option Response) :
    ({ s with inputs := ins, resp := ans } : State).settled = s.settled :=
  settled_congr (s := { s with inputs := ins, resp := ans }) (t := s) ⟨rfl, rfl⟩ rfl

/-- An edge brings a command nearer to its completion and does not change what it leaves. -/
theorem settled_tick (s : State) : s.tick.settled = s.settled := by
  cases hf : s.inflight with
  | none => rw [tick_none hf]
  | some f =>
    by_cases hl : f.left ≤ 1
    · rw [tick_done hf hl, settled_inflight hf, settled_idle rfl]; rfl
    · rw [tick_count hf hl, settled_inflight hf, settled_inflight rfl]
      exact commit_registers_inflight s _ _

/-! ## One edge with a program's access at the head of the queue -/

/-- R72: the access a host of this block presents reaches the port. -/
theorem present_fromPort {s : State} (h : s.resetSeen = true) (p : PortAccess) :
    s.present (fromPort s.cfg p) = .ok p := by
  have ha : p.addr.toNat < 64 := p.addr.isLt
  have halign : (s.cfg.coreBase + 4 * p.addr.toNat) % 4 = 0 := by rw [Config.coreBase]; omega
  have hwin : 4 * p.addr.toNat < 256 := by omega
  simp [State.present, h, toPort, fromPort, halign, hwin]

section
variable {s : State} {h : HostAccess} {rest : List Input} {p : PortAccess}

/-- R303: with no command in flight the access at the head of the queue is performed. -/
theorem step_free (hi : s.inputs = .access h :: rest) (hp : s.present h = .ok p) (hb : s.busy = false) :
    step s = perform (decodePort p) { s with inputs := rest } := by
  have hr : s.ready p = true := ready_iff.mpr (.inl hb)
  simp only [step, hi, hp, hr, hb, if_true]
  cases perform (decodePort p) { s with inputs := rest } <;> rfl

/-- R306: a read of STATUS completes while a command is in flight. -/
theorem step_statusRead (hi : s.inputs = .access h :: rest) (hp : s.present h = .ok p)
    (hb : s.busy = true) (hs : isStatusRead p) :
    step s = .next (({ s with inputs := rest } : State).answer s.status).tick := by
  have hr : s.ready p = true := ready_iff.mpr (.inr hs)
  have hperf : perform (.rd statusOffset) { s with inputs := rest } =
      .next (({ s with inputs := rest } : State).answer s.status) := rfl
  simp only [step, hi, hp, hr, hb, if_true, decodePort_statusRead hs.1 hs.2, hperf]

/-- R306: every other access waits while a command is in flight. -/
theorem step_waiting (hi : s.inputs = .access h :: rest) (hp : s.present h = .ok p)
    (hb : s.busy = true) (hs : ¬ isStatusRead p) : step s = .next s.edgeWithoutAccess := by
  have hr : s.ready p = false :=
    Bool.eq_false_iff.mpr fun e => (ready_iff.mp e).elim (by simp [hb]) hs
  simp only [step, hi, hp, hr, Bool.false_eq_true, if_false]

end

theorem step_empty {s : State} (hi : s.inputs = []) : step s = .next s.edgeWithoutAccess := by
  simp only [step, hi]

/-- Performing an access while nothing is in flight leads to what its atomic reading leaves (R311). -/
theorem perform_settles (p : PortAccess) {s : State} (hf : s.inflight = none) :
    ∃ t u, perform (decodePort p) s = .next t ∧
      exec (decodePort p) (s.beginAccess (decodePort p)) = .next u ∧
      t.settled = u.registers ∧ u.inflight = none ∧ t.resp = u.resp ∧
      t.inputs = s.inputs ∧ t.cfg = s.cfg ∧ t.resetSeen = s.resetSeen := by
  have hb : (s.beginAccess (decodePort p)).inflight = s.inflight ∧
      (s.beginAccess (decodePort p)).cfg = s.cfg ∧
      (s.beginAccess (decodePort p)).inputs = s.inputs ∧
      (s.beginAccess (decodePort p)).resetSeen = s.resetSeen := by
    rw [State.beginAccess]; split <;> simp
  obtain ⟨hbf, hbcfg, hbins, hbseen⟩ := hb
  cases hl : (s.beginAccess (decodePort p)).acceptLater (decodePort p) with
  | some f =>
    obtain ⟨hc, hops, -⟩ := acceptLater_eq_some hl
    refine ⟨{ s.beginAccess (decodePort p) with inflight := some f }, _, by rw [perform, hl],
      exec_command hc _, ?_, by simp [hbf, hf], by simp, hbins, hbcfg, hbseen⟩
    rw [settled_inflight rfl, InFlight.result, hops]
    exact commit_registers_inflight _ _ _
  | none =>
    obtain ⟨u, -, hu, -⟩ := exec_access_alike p (State.Alike.refl s)
    obtain ⟨hfu, hcfg, hins, hseen⟩ := exec_frame hu
    have hfu : u.inflight = none := by rw [hfu, hbf, hf]
    exact ⟨u, u, by rw [perform, hl, hu], hu, settled_idle hfu, hfu, rfl, hins.trans hbins,
      hcfg.trans hbcfg, hseen.trans hbseen⟩

/-! ## A timed run follows the atomic reading of its program -/

/-- The timed block in `s`, with `ps` still to come at its port, stands where the atomic reading stands in
`v`: it has `v`'s registers once its command in flight has completed. -/
structure Simulates (s v : State) (ps : List PortAccess) : Prop where
  resetSeen : s.resetSeen = true
  inputs : s.inputs = program s.cfg ps
  settled : s.settled = v.registers
  idle : v.inflight = none

theorem Simulates.edgeWithoutAccess {s v : State} {ps : List PortAccess} (h : Simulates s v ps) :
    Simulates s.edgeWithoutAccess v ps where
  resetSeen := by simpa [State.edgeWithoutAccess] using h.resetSeen
  inputs := by simpa [State.edgeWithoutAccess] using h.inputs
  settled := by
    rw [State.edgeWithoutAccess, settled_tick, ← h.settled]
    exact settled_inputs_resp s _ _
  idle := h.idle

/-- R306: unless a read of STATUS is next, nothing completes at the port while a command is in flight. -/
theorem Simulates.step_busy {s v : State} {ps : List PortAccess} (h : Simulates s v ps)
    (hb : s.busy = true) (hps : ∀ p ∈ ps.head?, ¬ isStatusRead p) :
    step s = .next s.edgeWithoutAccess := by
  cases ps with
  | nil => exact step_empty h.inputs
  | cons p ps => exact step_waiting h.inputs (present_fromPort h.resetSeen p) hb (hps p rfl)

/-- An access that completes leaves the timed block where the atomic reading's access does; and it answers
the same, unless it is a read of STATUS, which can see BUSY. -/
theorem Simulates.step_completes {s v : State} {p : PortAccess} {ps : List PortAccess}
    (h : Simulates s v (p :: ps)) (hready : isStatusRead p ∨ s.busy = false) :
    ∃ t v', step s = .next t ∧ exec (decodePort p) (v.beginAccess (decodePort p)) = .next v' ∧
      Simulates t v' ps ∧ (¬ isStatusRead p → t.resp = v'.resp) := by
  have hp := present_fromPort h.resetSeen p
  by_cases hb : s.busy = true
  · have hs : isStatusRead p := hready.resolve_right (by simp [hb])
    refine ⟨_, { v with resp := some ⟨v.status, false⟩ }, step_statusRead h.inputs hp hb hs, ?_,
      ⟨by simpa using h.resetSeen, by simp [program], ?_, h.idle⟩, fun hn => absurd hs hn⟩
    · rw [decodePort_statusRead hs.1 hs.2]; rfl
    · rw [settled_tick]
      exact (settled_inputs_resp s _ _).trans h.settled
  · have hb : s.busy = false := by simpa using hb
    have hf := busy_eq_false.mp hb
    have halike : ({ s with inputs := program s.cfg ps } : State).Alike v :=
      ⟨(settled_idle hf).symm.trans h.settled, hf.trans h.idle.symm⟩
    obtain ⟨t, u, ht, hu, hset, hidle, hresp, hins, hcfg, hseen⟩ :=
      perform_settles p (s := { s with inputs := program s.cfg ps }) hf
    obtain ⟨u', v', hu', hv', hl, hans⟩ := exec_access_alike p halike
    obtain rfl : u = u' := by simpa [hu] using hu'
    refine ⟨t, v', (step_free h.inputs hp hb).trans ht, hv', ⟨hseen.trans h.resetSeen, ?_,
      hset.trans hl.registers, hl.inflight.symm.trans hidle⟩, fun _ => hresp.trans hans⟩
    rw [hins, hcfg]

/-! ## Runs -/

/-- Edges lead from `s` to `t`, and the accesses that complete at them answer `as`. -/
inductive Runs : State → State → List Response → Prop
  | refl (s : State) : Runs s s []
  | cons {s t u : State} {as : List Response} (h : step s = .next t) (r : Runs t u as) :
      Runs s u (t.resp.toList ++ as)

theorem Runs.trans {s t u : State} {as bs : List Response} (h : Runs s t as) (h' : Runs t u bs) :
    Runs s u (as ++ bs) := by
  induction h with
  | refl => exact h'
  | cons hs _ ih => rw [List.append_assoc]; exact .cons hs (ih h')

/-- Such edges are a run of the machine, and `as` is what is observed of it. -/
theorem Runs.run_observe {s t : State} {as : List Response} (h : Runs s t as) :
    ∃ n, Host.Core.run core n s = .next t ∧ observe n s = as := by
  induction h with
  | refl => exact ⟨0, rfl, rfl⟩
  | @cons s t u as hs _ ih =>
    obtain ⟨n, hrun, hobs⟩ := ih
    have hcore : core.step s = .next t := hs
    exact ⟨n + 1, by simp only [Host.Core.run, hcore, hrun], by simp only [observe, hs, hobs]⟩

/-- Unless a read of STATUS is next, the block comes to rest without completing an access. -/
theorem Simulates.runs_to_idle {s v : State} {ps : List PortAccess} (h : Simulates s v ps)
    (hps : ∀ p ∈ ps.head?, ¬ isStatusRead p) :
    ∃ t, Runs s t [] ∧ t.busy = false ∧ Simulates t v ps := by
  cases hf : s.inflight with
  | none => exact ⟨s, .refl s, busy_eq_false.mpr hf, h⟩
  | some f =>
    induction hn : f.left using Nat.strong_induction_on generalizing s f with
    | _ n ih =>
      have hs := h.step_busy (by simp [State.busy, hf]) hps
      by_cases hl : f.left ≤ 1
      · have he := edgeWithoutAccess_done hf hl
        exact ⟨_, by simpa [he] using Runs.cons hs (.refl _), by rw [he]; rfl, h.edgeWithoutAccess⟩
      · have he := edgeWithoutAccess_count hf hl
        obtain ⟨t, hr, hb, ht⟩ := ih (f.left - 1) (by omega) h.edgeWithoutAccess
          { f with left := f.left - 1 } (by rw [he]) rfl
        exact ⟨t, by simpa [he] using Runs.cons hs hr, hb, ht⟩

/-- A program's run comes to its end with the registers its atomic reading leaves, and, where it reads no
STATUS, with the same answers (R311). -/
theorem Simulates.runs_to_end {ps : List PortAccess} {s v : State} (h : Simulates s v ps) :
    ∃ t u as, Runs s t as ∧ t.busy = false ∧ t.inputs = [] ∧ atomicRun ps v = .next u ∧
      t.registers = u.registers ∧ ((∀ p ∈ ps, ¬ isStatusRead p) → as = atomicObserve ps v) := by
  induction ps generalizing s v with
  | nil =>
    obtain ⟨t, hr, hb, ht⟩ := h.runs_to_idle (by simp)
    exact ⟨t, v, [], hr, hb, ht.inputs, rfl,
      (settled_idle (busy_eq_false.mp hb)).symm.trans ht.settled, fun _ => rfl⟩
  | cons p ps ih =>
    obtain ⟨s₁, hr₁, hready, h₁⟩ :
        ∃ s₁, Runs s s₁ [] ∧ (isStatusRead p ∨ s₁.busy = false) ∧ Simulates s₁ v (p :: ps) := by
      by_cases hs : isStatusRead p
      · exact ⟨s, .refl s, .inl hs, h⟩
      · obtain ⟨t, hr, hb, ht⟩ := h.runs_to_idle (by simpa using hs)
        exact ⟨t, hr, .inr hb, ht⟩
    obtain ⟨s₂, v', hstep, hexec, h₂, hans⟩ := h₁.step_completes hready
    obtain ⟨t, u, as, hr, hb, hins, hu, hreg, hobs⟩ := ih h₂
    refine ⟨t, u, _, hr₁.trans (.cons hstep hr), hb, hins, ?_, hreg, fun hps => ?_⟩
    · simp only [atomicRun, hexec, hu]
    · simp only [List.forall_mem_cons] at hps
      simp only [atomicObserve, hexec, hobs hps.2, hans hps.1, List.nil_append]

/-- A block at rest, with a program at its port, stands where the atomic reading begins. -/
theorem simulates_start {s v : State} {ps : List PortAccess} (hf : s.inflight = none)
    (hseen : s.resetSeen = true) (hins : s.inputs = program s.cfg ps) (hv : s.Alike v) :
    Simulates s v ps :=
  ⟨hseen, hins, (settled_idle hf).trans hv.registers, hv.inflight.symm.trans hf⟩

theorem runOver_of_empty {s : State} (hi : s.inputs = []) (hb : s.busy = false) : s.RunOver :=
  ⟨by simp [hi], hb⟩

/-- Settles O57: both runs follow one atomic reading, which no parameter enters. -/
theorem noValueDependsOnTheParameters : Obligations.NoValueDependsOnTheParameters := by
  unfold Obligations.NoValueDependsOnTheParameters
  intro s c ps hf hseen hins
  obtain ⟨t, u, as, hr, hb, hi, hu, hreg, hobs⟩ :=
    (simulates_start hf hseen hins (.refl s)).runs_to_end
  obtain ⟨t', u', as', hr', hb', hi', hu', hreg', hobs'⟩ :=
    (simulates_start (s := { s with cfg := c, inputs := program c ps }) hf hseen rfl
      (v := s) ⟨rfl, rfl⟩).runs_to_end
  obtain rfl : u = u' := by simpa [hu] using hu'
  obtain ⟨n, hn, hon⟩ := hr.run_observe
  obtain ⟨n', hn', hon'⟩ := hr'.run_observe
  exact ⟨n, t, n', t', hn, runOver_of_empty hi hb, hi, hn', runOver_of_empty hi' hb', hi',
    hreg.trans hreg'.symm, fun hps => by rw [hon, hon', hobs hps, hobs' hps]⟩

end Sys2Proof.Machine

namespace Sys2Proof.Machine

/-! ## Beginning an access: what it leaves, and when a command is kept for later -/

section
variable (s : State) (i : Instr)

@[simp] theorem beginAccess_r : (s.beginAccess i).r = s.r := by unfold State.beginAccess; split <;> rfl
@[simp] theorem beginAccess_s : (s.beginAccess i).s = s.s := by unfold State.beginAccess; split <;> rfl
@[simp] theorem beginAccess_bit : (s.beginAccess i).bit = s.bit := by
  unfold State.beginAccess; split <;> rfl
@[simp] theorem beginAccess_inflight : (s.beginAccess i).inflight = s.inflight := by
  unfold State.beginAccess; split <;> rfl
@[simp] theorem beginAccess_cfg : (s.beginAccess i).cfg = s.cfg := by
  unfold State.beginAccess; split <;> rfl

end

/-- R37: before its instruction runs, an access stores a command's word in CMD and no other. -/
theorem beginAccess_cmd (s : State) (p : PortAccess) :
    (s.beginAccess (decodePort p)).cmd = s.cmd ∨
      (p.we = true ∧ p.addr = cmdOffset ∧ (s.beginAccess (decodePort p)).cmd = p.wdata) := by
  cases hc : commandOf (decodePort p) with
  | none => rw [beginAccess_plain hc]; exact .inl rfl
  | some x =>
    obtain ⟨hw, ha, hd, -⟩ := commandOf_decodePort (op := x.1) (d := x.2) hc
    rw [beginAccess_command (op := x.1) (d := x.2) hc]
    exact .inr ⟨hw, ha, hd.symm⟩

/-- R303: a command whose check passes and whose latency is not 0 is kept, with its operands as they
stand. -/
theorem acceptLater_of_ok {i : Instr} {op : Opcode} {d : Dst} {s : State}
    (hc : commandOf i = some (op, d)) (hl : latency s.cfg op ≠ 0)
    (he : (commandResult s.cfg.mulAlg op d s.sample).isError = false) :
    s.acceptLater i = some { op := op, dst := d, ops := s.sample, left := latency s.cfg op } := by
  simp [State.acceptLater, hc, hl, he]

/-! ## The invariant -/

theorem inv_of_idle {s : State} (h : s.inflight = none) : s.Inv := by
  intro f hf
  rw [h] at hf
  cases hf

/-- Soundness of a record is about the registers and the parameters only. -/
theorem State.Inv.setInputsResp {s : State} (h : s.Inv) (ins : List Input) (ans : Option Response) :
    ({ s with inputs := ins, resp := ans } : State).Inv := h

/-- A record with a cycle less, and a cycle still left, is sound. -/
theorem InFlight.Sound.count {f : InFlight} {s : State} (h : f.Sound s) (hl : ¬ f.left ≤ 1) :
    ({ f with left := f.left - 1 } : InFlight).Sound s := by
  obtain ⟨hops, -, hlat, hok, hdst⟩ := h
  exact ⟨hops, by simp only; omega, by simp only; omega, hok, hdst⟩

/-- The command in flight advances soundly: no register changes before it is in flight no more. -/
theorem State.Inv.tick {s : State} (h : s.Inv) : s.tick.Inv := by
  cases hf : s.inflight with
  | none => rwa [tick_none hf]
  | some f =>
    by_cases hl : f.left ≤ 1
    · rw [tick_done hf hl]; exact inv_of_idle rfl
    · rw [tick_count hf hl]
      intro g hg
      cases hg
      exact (h f hf).count hl

/-- The record kept at an accepting edge is sound in the state it is put in. -/
theorem inv_of_acceptLater {i : Instr} {s : State} {f : InFlight} (h : s.acceptLater i = some f) :
    ({ s with inflight := some f } : State).Inv := by
  obtain ⟨hc, hops, hlat, hne, hok⟩ := acceptLater_eq_some h
  intro g hg
  cases hg
  exact ⟨hops, Nat.one_le_iff_ne_zero.mpr hne, hlat.le, hok, (commandOf_admits hc).1⟩

/-- Everything an edge can do, with the edges at which nothing is performed taken together: they change the
queue and the port's answer at most and let a command in flight advance. -/
theorem step_cases_tick {s t : State} (h : step s = .next t) :
    (∃ ins ans, t = ({ s with inputs := ins, resp := ans } : State).tick) ∨
    (∃ rest, s.inputs = .reset :: rest ∧ t = ({ s with inputs := rest } : State).resetEdge) ∨
    (s.busy = false ∧ ∃ hst rest p u, s.inputs = .access hst :: rest ∧ s.present hst = .ok p ∧
      u = ({ s with inputs := rest } : State).beginAccess (decodePort p) ∧
      ((∃ f, u.acceptLater (decodePort p) = some f ∧ t = { u with inflight := some f }) ∨
       (u.acceptLater (decodePort p) = none ∧ exec (decodePort p) u = .next t))) := by
  rcases step_cases h with ⟨-, ht⟩ | hreset | ⟨hst, rest, p, hi, hp, hacc⟩
  · exact .inl ⟨_, none, ht⟩
  · exact .inr (.inl hreset)
  · rcases hacc with ⟨-, ht⟩ | ⟨-, -, -, ht⟩ | ⟨hb, hlater⟩ | ⟨hb, hnow⟩
    · exact .inl ⟨s.inputs, none, ht⟩
    · exact .inl ⟨rest, _, ht⟩
    · exact .inr (.inr ⟨hb, hst, rest, p, _, hi, hp, rfl, .inl hlater⟩)
    · exact .inr (.inr ⟨hb, hst, rest, p, _, hi, hp, rfl, .inr hnow⟩)

/-- Settles O54: by what an edge can do (`step_cases`); a record is made sound and kept sound. -/
theorem everyStepKeepsTheInvariant : Obligations.EveryStepKeepsTheInvariant := by
  unfold Obligations.EveryStepKeepsTheInvariant
  intro s t hinv hstep
  rcases step_cases_tick hstep with ⟨ins, ans, rfl⟩ | ⟨rest, -, rfl⟩ |
    ⟨hb, hst, rest, p, u, -, -, rfl, ⟨f, hlater, rfl⟩ | ⟨-, hexec⟩⟩
  · exact (hinv.setInputsResp ins ans).tick
  · exact inv_of_idle rfl
  · exact inv_of_acceptLater hlater
  · refine inv_of_idle ?_
    rw [(exec_frame hexec).1, beginAccess_inflight]
    exact busy_eq_false.mp hb

/-- Settles O53: nothing is in flight after reset. -/
theorem resetIsSound : Obligations.ResetIsSound := inv_of_idle rfl

/-! ## Acceptance -/

/-- Settles O10: the access is performed, and its command, whose check passes, is kept for later. -/
theorem acceptedCommandGoesInFlight : Obligations.AcceptedCommandGoesInFlight := by
  unfold Obligations.AcceptedCommandGoesInFlight
  intro s h rest p op d hi hp hb hc hlat hshl hhexdec
  obtain ⟨-, -, hword, -⟩ := commandOf_decodePort hc
  have hok : (commandResult s.cfg.mulAlg op d s.sample).isError = false := by
    rw [Bool.eq_false_iff, ne_eq, commandResult_isError]
    rintro (⟨ho, hs⟩ | ⟨ho, hs⟩)
    · exact absurd (hshl ho) (Nat.not_le.mpr hs)
    · exact absurd (hhexdec ho) (Nat.not_le.mpr hs)
  have hlater := acceptLater_of_ok
    (s := { s with inputs := rest, cmd := p.wdata, resp := some ⟨0, false⟩ }) hc hlat hok
  rw [step_free hi hp hb, perform, beginAccess_command hc, ← hword, hlater]
  rfl

/-! ## A plain write, by what its offset names -/

theorem ne_cmdOffset {off : BitVec 6} (h : windowReg off ≠ .cmd) : off ≠ cmdOffset := by
  rintro rfl
  exact h windowReg_cmd

/-- A write that is no submission and no bus error stores its word and is answered. -/
theorem exec_wr_of_busWrite {s t : State} {off : BitVec 6} {v : Word} (ho : windowReg off ≠ .cmd)
    (h : s.busWrite off v = some t) : exec (.wr off v) s = .next (t.answer 0) := by
  rw [exec_plain_wr (ne_cmdOffset ho), h]
  rfl

/-- R32: the word written, and the seven others. -/
theorem setWord_changes_one_word (v : Value) (x : Word) {k : Nat} (hk : k < 8) :
    word (setWord v k x) k = x ∧ ∀ j, j < 8 → j ≠ k → word (setWord v k x) j = word v j :=
  ⟨by rw [word_setWord v x hk hk, if_pos rfl],
    fun j hj hne => by rw [word_setWord v x hk hj, if_neg hne]⟩

/-- Settles O22: each clause is the register write at its offset. -/
theorem writeChangesOneRegisterWord : Obligations.WriteChangesOneRegisterWord := by
  unfold Obligations.WriteChangesOneRegisterWord
  intro s v
  refine ⟨fun k hk => ?_, fun k hk => ?_, exec_wr_of_busWrite (by decide) (busWrite_s s v), ?_⟩
  · obtain ⟨hsame, hother⟩ := setWord_changes_one_word s.a v hk
    exact ⟨_, exec_wr_of_busWrite (by simp [windowReg_a ⟨k, hk⟩]) (busWrite_a s ⟨k, hk⟩ v),
      hsame, hother, rfl, rfl⟩
  · obtain ⟨hsame, hother⟩ := setWord_changes_one_word s.b v hk
    exact ⟨_, exec_wr_of_busWrite (by simp [windowReg_b ⟨k, hk⟩]) (busWrite_b s ⟨k, hk⟩ v),
      hsame, hother, rfl, rfl⟩
  · have hlow : BitVec.ofNat 7 (v.toNat % 128) = v.extractLsb' 0 7 := by
      apply BitVec.eq_of_toNat_eq
      simp
    rw [hlow]
    exact exec_wr_of_busWrite (by decide) (busWrite_hexlen s v)

/-- R43, R76: a HEXBUF write, byte by byte, and its frame. -/
theorem exec_wr_hexbuf_bytes (s : State) (k : Fin 17) (v : Word) : ∃ t,
    exec (.wr (BitVec.ofNat 6 (32 + k.val)) v) s = .next t ∧
    (∀ j : Fin 68, t.hexbuf[j] =
      if j.val / 4 = k.val then v.extractLsb' (8 * (j.val % 4)) 8 else s.hexbuf[j]) ∧
    t.resp = some ⟨0, false⟩ ∧ { t with hexbuf := s.hexbuf, resp := s.resp } = s := by
  refine ⟨_, exec_wr_of_busWrite (by simp [windowReg_hexbuf]) (busWrite_hexbuf s k v),
    fun j => setHexWord_getElem s.hexbuf k v j.val j.isLt, rfl, ?_⟩
  -- the frame holds of any buffer; with the new one written out, `rfl` would compute its bytes
  generalize setHexWord s.hexbuf k v = buf
  rfl

/-- Settles O23: the second clause is the first for word 0, read at its four bytes. -/
theorem hexbufWriteSetsItsFourBytes : Obligations.HexbufWriteSetsItsFourBytes := by
  unfold Obligations.HexbufWriteSetsItsFourBytes
  refine ⟨exec_wr_hexbuf_bytes, fun s => ?_⟩
  obtain ⟨t, hexec, hbytes, -⟩ := exec_wr_hexbuf_bytes s 0 0x67324131
  exact ⟨t, hexec, hbytes 0, hbytes 1, hbytes 2, hbytes 3⟩

/-- R79, R80: a register write leaves what every other offset reads. -/
theorem busRead_after_busWrite_other {s t : State} {off other : BitVec 6} {v : Word}
    (h : s.busWrite off v = some t) (hne : other ≠ off) : t.busRead other = s.busRead other := by
  have hreg : windowReg off ≠ .unmapped → windowReg other ≠ windowReg off :=
    fun hm e => hne (windowReg_injective off other e.symm hm).symm
  unfold State.busWrite at h
  unfold State.busRead
  cases hw : windowReg off <;>
    simp only [hw, Option.some.injEq, reduceCtorEq, ne_eq, not_false_eq_true, forall_const] at h hreg <;>
    subst h
  case a k =>
    cases ho : windowReg other with
    | a j =>
      have hjk : j.val ≠ k.val := fun e => hreg (by rw [ho, Fin.ext e])
      simp only [word_setWord s.a v k.isLt j.isLt, if_neg hjk]
    | _ => rfl
  case b k =>
    cases ho : windowReg other with
    | b j =>
      have hjk : j.val ≠ k.val := fun e => hreg (by rw [ho, Fin.ext e])
      simp only [word_setWord s.b v k.isLt j.isLt, if_neg hjk]
    | _ => rfl
  case s =>
    cases ho : windowReg other with
    | s => exact absurd ho hreg
    | _ => rfl
  case cmd =>
    cases ho : windowReg other with
    | cmd => exact absurd ho hreg
    | _ => rfl
  case hexlen =>
    cases ho : windowReg other with
    | hexlen => exact absurd ho hreg
    | _ => rfl
  case hexbuf k =>
    cases ho : windowReg other with
    | hexbuf j =>
      have hjk : j.val ≠ k.val := fun e => hreg (by rw [ho, Fin.ext e])
      simp only [hexWord_setHexWord_other s.hexbuf v (Fin.val_ne_iff.mp hjk)]
    | status => simp only [State.status, State.busy]
    | _ => rfl

@[simp] theorem busRead_answer (s : State) (w : Word) (off : BitVec 6) :
    (s.answer w).busRead off = s.busRead off := rfl

/-- Settles O25: a write that is a bus error leaves everything, and one that is not leaves every other
offset. -/
theorem writeLeavesEveryOtherOffset : Obligations.WriteLeavesEveryOtherOffset := by
  unfold Obligations.WriteLeavesEveryOtherOffset
  intro s off other v ho hne
  rw [exec_plain_wr ho]
  cases hw : s.busWrite off v with
  | none => exact ⟨s.raiseBusError, rfl, rfl⟩
  | some t =>
    exact ⟨t.answer 0, rfl, (busRead_answer t 0 other).trans (busRead_after_busWrite_other hw hne)⟩

/-! ## What a command writes stays in its write set (R47) -/

section
variable (s : State) (alg : MulAlg) {op : Opcode} {d : Dst} (o : Operands)

theorem commit_command_bit (h : op ≠ .btst) : (s.commit (commandResult alg op d o)).bit = s.bit := by
  rcases commandResult_cases alg op d o with ⟨v, -, -, -, e⟩ | ⟨buf, len, -, e⟩ | ⟨x, ho, -⟩ |
    ⟨-, -, e⟩ | ⟨-, -, e⟩
  · rw [e, commit_value, setErr_bit, writeDst_bit]
  · rw [e, commit_text]
  · exact absurd ho h
  · rw [e, commit_error]
  · rw [e, commit_error]

theorem commit_command_hexbuf_hexlen (h : op ≠ .hexenc) :
    (s.commit (commandResult alg op d o)).hexbuf = s.hexbuf ∧
      (s.commit (commandResult alg op d o)).hexlen = s.hexlen := by
  rcases commandResult_cases alg op d o with ⟨v, -, -, -, e⟩ | ⟨buf, len, ho, -⟩ | ⟨x, -, e⟩ |
    ⟨-, -, e⟩ | ⟨-, -, e⟩
  · rw [e, commit_value]; simp
  · exact absurd ho h
  · rw [e]; exact ⟨rfl, rfl⟩
  · rw [e]; exact ⟨rfl, rfl⟩
  · rw [e]; exact ⟨rfl, rfl⟩

theorem commit_command_readDst {e : Dst} (h : e ≠ d ∨ op.writesValue = false) :
    (s.commit (commandResult alg op d o)).readDst e = s.readDst e := by
  rcases commandResult_cases alg op d o with ⟨v, hv, -, -, hr⟩ | ⟨buf, len, -, hr⟩ | ⟨x, -, hr⟩ |
    ⟨-, -, hr⟩ | ⟨-, -, hr⟩
  · have hne : e ≠ d := h.resolve_right (by simp [hv])
    rw [hr, commit_value, readDst_setErr, readDst_writeDst, if_neg hne]
  all_goals rw [hr]; cases e <;> rfl

/-- R261: a command error writes ERR alone. -/
theorem commit_of_isError {w : Result} (h : w.isError = true) :
    ∃ e, s.commit w = { s with err := e } := by
  cases w with
  | error e => exact ⟨e, rfl⟩
  | _ => cases h

/-- R41: a command that is no error leaves ERR = 0. -/
theorem isError_of_commit_err {w : Result} (h : (s.commit w).err ≠ .noError) : w.isError = true := by
  cases w with
  | error e => rfl
  | _ => exact absurd rfl h

end

/-- Settles O47: what a command does is the write of its result, and each field has its rule above. -/
theorem commandsKeepToTheirWriteSet : Obligations.CommandsKeepToTheirWriteSet := by
  unfold Obligations.CommandsKeepToTheirWriteSet
  intro s i op d hc
  refine ⟨_, exec_command hc s, commit_s s _, commit_cmd s _, commit_inflight s _, commit_cfg s _,
    commit_inputs s _, commit_resp s _, commit_resetSeen s _,
    commit_command_hexbuf_hexlen s _ _, commit_command_bit s _ _,
    fun e => commit_command_readDst s _ _, fun herr => ?_⟩
  obtain ⟨e, he⟩ := commit_of_isError s (isError_of_commit_err s herr)
  rw [he]

/-! ## What an edge does to the registers the host does not write -/

/-- The command `op.d` completes at the next edge, if that is no reset: it is in flight at its last
cycle (R305), or it has latency 0 and its CMD write completes at that edge (R304). -/
def State.CompletesCommand (s : State) (op : Opcode) (d : Dst) : Prop :=
  (∃ f, s.inflight = some f ∧ f.op = op ∧ f.dst = d ∧ f.left ≤ 1) ∨
  (s.busy = false ∧ latency s.cfg op = 0 ∧
    ∃ h rest p, s.inputs = .access h :: rest ∧ s.present h = .ok p ∧
      commandOf (decodePort p) = some (op, d))

/-- `t` has the BIT and the R of `s`, but for what the command `op.d` writes. -/
def KeptBut (s t : State) (op : Opcode) (d : Dst) : Prop :=
  (op ≠ .btst → t.bit = s.bit) ∧ (d ≠ .r ∨ op.writesValue = false → t.r = s.r)

theorem keptBut_commit (s : State) (alg : MulAlg) (op : Opcode) (d : Dst) (o : Operands) :
    KeptBut s (s.commit (commandResult alg op d o)) op d :=
  ⟨commit_command_bit s alg o, fun h => commit_command_readDst s alg o (e := .r) (h.imp Ne.symm id)⟩

/-- An edge changes R and BIT by the completion of the command in flight only. -/
theorem tick_r_bit (s : State) :
    (s.tick.r = s.r ∧ s.tick.bit = s.bit) ∨
      ∃ f, s.inflight = some f ∧ f.left ≤ 1 ∧ KeptBut s s.tick f.op f.dst := by
  rcases tick_cases s with ⟨hr, -⟩ | ⟨f, hf, hl, ht⟩
  · exact .inl ⟨congrArg Registers.r hr, congrArg Registers.bit hr⟩
  · rw [ht]
    exact .inr ⟨f, hf, hl, keptBut_commit s _ _ _ _⟩

/-- What runs at an accepting edge changes R and BIT only by a command of latency 0: a plain access does not
write them, and a command whose check fails writes ERR alone. -/
theorem exec_now_r_bit {p : PortAccess} {u t : State} (hlater : u.acceptLater (decodePort p) = none)
    (hexec : exec (decodePort p) u = .next t) :
    (t.r = u.r ∧ t.bit = u.bit) ∨
      ∃ op d, commandOf (decodePort p) = some (op, d) ∧ latency u.cfg op = 0 ∧ KeptBut u t op d := by
  cases hc : commandOf (decodePort p) with
  | none =>
    obtain ⟨hr, hbit, -⟩ := exec_plain_frame hc hexec
    exact .inl ⟨hr, hbit⟩
  | some x =>
    obtain ⟨op, d⟩ := x
    rw [exec_command hc] at hexec
    cases hexec
    rcases acceptLater_eq_none hc hlater with hlat | herr
    · exact .inr ⟨op, d, rfl, hlat, keptBut_commit u _ op d _⟩
    · obtain ⟨e, he⟩ := commit_of_isError u herr
      rw [he]
      exact .inl ⟨rfl, rfl⟩

/-- R32, R40: at an edge R and BIT stay, or it is a reset, or a command completes there. -/
theorem step_r_bit {s t : State} (h : step s = .next t) :
    (∃ rest, s.inputs = .reset :: rest) ∨ (t.r = s.r ∧ t.bit = s.bit) ∨
      ∃ op d, s.CompletesCommand op d ∧ KeptBut s t op d := by
  rcases step_cases_tick h with ⟨ins, ans, rfl⟩ | ⟨rest, hi, -⟩ |
    ⟨hb, hst, rest, p, u, hi, hp, rfl, ⟨f, -, rfl⟩ | ⟨hlater, hexec⟩⟩
  · refine .inr ((tick_r_bit { s with inputs := ins, resp := ans }).imp id ?_)
    rintro ⟨f, hf, hl, hk⟩
    exact ⟨f.op, f.dst, .inl ⟨f, hf, rfl, rfl, hl⟩, hk⟩
  · exact .inl ⟨rest, hi⟩
  · exact .inr (.inl ⟨beginAccess_r _ _, beginAccess_bit _ _⟩)
  · have hnow := exec_now_r_bit hlater hexec
    simp only [KeptBut, beginAccess_r, beginAccess_bit, beginAccess_cfg] at hnow
    refine .inr (hnow.imp id ?_)
    rintro ⟨op, d, hc, hlat, hk⟩
    exact ⟨op, d, .inr ⟨hb, hlat, hst, rest, p, hi, hp, hc⟩, hk⟩

/-- Settles O49: of the commands that can complete at the edge, only a BTST writes BIT. -/
theorem bitChangesOnlyByBtst : Obligations.BitChangesOnlyByBtst := by
  unfold Obligations.BitChangesOnlyByBtst
  intro s t hstep hne
  rcases step_r_bit hstep with hreset | ⟨-, hbit⟩ | ⟨op, d, hends, hbit, -⟩
  · exact .inl hreset
  · exact absurd hbit hne
  · obtain rfl : op = .btst := not_not.mp fun ho => hne (hbit ho)
    rcases hends with ⟨f, hf, hop, -, hl⟩ | ⟨hb, hlat, h, rest, p, hi, hp, hc⟩
    · exact .inr (.inl ⟨f, hf, hop, hl⟩)
    · exact .inr (.inr ⟨hb, hlat, h, rest, p, hi, hp, (commandOf_admits hc).2⟩)

/-- Settles O51: of the commands that can complete at the edge, only a value-writing one with DST = R
writes R. -/
theorem rChangesOnlyByCommands : Obligations.RChangesOnlyByCommands := by
  unfold Obligations.RChangesOnlyByCommands
  intro s t hstep hne
  rcases step_r_bit hstep with hreset | ⟨hr, -⟩ | ⟨op, d, hends, -, hr⟩
  · exact .inl hreset
  · exact absurd hr hne
  · obtain ⟨hd, hv⟩ := not_or.mp (mt hr hne)
    obtain rfl : d = .r := not_not.mp hd
    have hv : op.writesValue = true := by simpa using hv
    rcases hends with ⟨f, hf, rfl, hdst, hl⟩ | ⟨hb, hlat, h, rest, p, hi, hp, hc⟩
    · exact .inr (.inl ⟨f, hf, hdst, hv, hl⟩)
    · exact .inr (.inr ⟨hb, h, rest, p, op, hi, hp, hc, hv, hlat⟩)

/-! ## S and CMD -/

/-- R33, R37: an access changes S or CMD only by a write of its offset, which gives it the data. -/
theorem exec_begun_s_cmd {p : PortAccess} {s t : State}
    (hexec : exec (decodePort p) (s.beginAccess (decodePort p)) = .next t) :
    (t.s = s.s ∨ (p.we = true ∧ p.addr = 24 ∧ t.s = p.wdata)) ∧
      (t.cmd = s.cmd ∨ (p.we = true ∧ p.addr = cmdOffset ∧ t.cmd = p.wdata)) := by
  cases hc : commandOf (decodePort p) with
  | none =>
    rw [beginAccess_plain hc] at hexec
    obtain ⟨-, -, -, -, -, -, hs, hcmd⟩ := exec_plain_frame hc hexec
    exact ⟨hs, hcmd⟩
  | some x =>
    rw [exec_command (op := x.1) (d := x.2) hc] at hexec
    cases hexec
    rw [commit_s, commit_cmd, beginAccess_s]
    exact ⟨.inl rfl, beginAccess_cmd s p⟩

/-- R33, R37: at an edge that is no reset, S and CMD stay, or the port is free and the access presented is a
write of their offset. -/
theorem step_s_cmd {s t : State} (h : step s = .next t) (hr : ∀ rest, s.inputs ≠ .reset :: rest) :
    (t.s = s.s ∧ t.cmd = s.cmd) ∨
      (s.busy = false ∧ ∃ hst rest p, s.inputs = .access hst :: rest ∧ s.present hst = .ok p ∧
        (t.s = s.s ∨ (p.we = true ∧ p.addr = 24 ∧ t.s = p.wdata)) ∧
        (t.cmd = s.cmd ∨ (p.we = true ∧ p.addr = cmdOffset ∧ t.cmd = p.wdata))) := by
  rcases step_cases_tick h with ⟨ins, ans, rfl⟩ | ⟨rest, hi, -⟩ |
    ⟨hb, hst, rest, p, u, hi, hp, rfl, ⟨f, -, rfl⟩ | ⟨-, hexec⟩⟩
  · exact .inl ⟨tick_s _, tick_cmd _⟩
  · exact absurd hi (hr rest)
  · exact .inr ⟨hb, hst, rest, p, hi, hp, .inl (beginAccess_s _ _), beginAccess_cmd _ p⟩
  · exact .inr ⟨hb, hst, rest, p, hi, hp, exec_begun_s_cmd (s := { s with inputs := rest }) hexec⟩

/-- Settles O50: a register that differs is one whose offset was written. -/
theorem sAndCmdChangeOnlyByHostWrites : Obligations.SAndCmdChangeOnlyByHostWrites := by
  unfold Obligations.SAndCmdChangeOnlyByHostWrites
  intro s t hstep hr
  rcases step_s_cmd hstep hr with ⟨hs, hcmd⟩ | ⟨hb, h, rest, ⟨we, addr, v⟩, hi, hp, hs, hcmd⟩
  · exact ⟨absurd hs, absurd hcmd⟩
  · constructor <;> intro hne
    · obtain ⟨rfl, rfl, hv⟩ := hs.resolve_left hne
      exact ⟨hb, h, rest, v, hi, hp, hv⟩
    · obtain ⟨rfl, rfl, hv⟩ := hcmd.resolve_left hne
      exact ⟨hb, h, rest, v, hi, hp, hv⟩

/-! ## Reset -/

/-- Settles O14: every field of the reset state is its reset value. -/
theorem resetStateHoldsTheResetValues : Obligations.ResetStateHoldsTheResetValues := by
  unfold Obligations.ResetStateHoldsTheResetValues
  have hword : ∀ k, word 0 k = 0 := fun k => by simp [word]
  have hbyte : ∀ k : Fin 68, State.reset.hexbuf[k] = 0 := fun k => Vector.getElem_replicate k.isLt
  exact ⟨fun k _ => ⟨hword k, hword k, hword k⟩, rfl, rfl, rfl, rfl, rfl, rfl, rfl, hbyte, rfl⟩

/-- Settles O15: the port gives an access no meaning before a reset edge, and that edge sets `resetSeen`. -/
theorem accessBeforeResetIsRefused : Obligations.AccessBeforeResetIsRefused := by
  unfold Obligations.AccessBeforeResetIsRefused
  intro s rest
  constructor
  · intro h hseen hi
    have hp : s.present h = .error .accessBeforeReset := by simp [State.present, hseen]
    simp only [step, hi, hp]
  · intro hi
    exact ⟨({ s with inputs := rest } : State).resetEdge, by simp only [step, hi], rfl, rfl, rfl, rfl⟩

/-! ## CMD and STATUS as the host sees them -/

@[simp] theorem submit_cmd (s : State) (v : Word) : (s.submit v).cmd = s.cmd := by
  unfold State.submit
  split
  · rfl
  · exact commit_cmd _ _

/-- Settles O24: the write stores the word, its submission leaves CMD, and the read returns CMD. -/
theorem cmdReadsBackTheWordWritten : Obligations.CmdReadsBackTheWordWritten := by
  unfold Obligations.CmdReadsBackTheWordWritten
  intro s v
  refine ⟨_, _, exec_cmd_wr v s, exec_plain_rd 25 _, ?_⟩
  simp only [State.busRead, windowReg_cmd, submit_cmd, Option.elim]

/-- R38, R41: the bits of STATUS. -/
theorem status_layout (s : State) :
    s.status.getLsbD 0 = s.busy ∧ s.status.getLsbD 1 = s.bit ∧ s.status.extractLsb' 2 2 = 0 ∧
      s.status.extractLsb' 4 4 = s.err.code ∧ s.status.extractLsb' 8 24 = 0 := by
  unfold State.status
  cases s.busy <;> cases s.bit <;> cases s.err <;> decide

/-- Settles O48: a read returns `status`, whose bits `status_layout` gives; no write reaches it. -/
theorem statusReadHasItsLayout : Obligations.StatusReadHasItsLayout := by
  unfold Obligations.StatusReadHasItsLayout
  intro s
  obtain ⟨hbusy, hbit, hzero, herr, hhigh⟩ := status_layout s
  refine ⟨s.status, rfl, hbusy, hbit, hzero, ?_, hhigh, fun v => rfl⟩
  rw [herr]
  cases s.err <;> rfl

end Sys2Proof.Machine

namespace Sys2Proof.Machine

/-! ## The host's way to the port (R72, R77, R78) -/

/-- R72, R78: only the access a host of this block makes for `p` reaches the port as `p`. -/
theorem eq_fromPort_of_toPort {c : Config} {h : HostAccess} {p : PortAccess} (hok : toPort c h = .ok p) :
    h = fromPort c p := by
  unfold toPort at hok
  split at hok
  · cases hok
  split at hok
  · cases hok
  split at hok
  · cases hok
  rename_i hbytes halign hwindow
  cases hok
  have haddr : h.addr = c.coreBase + 4 * ((h.addr - c.coreBase) / 4 % 2 ^ 6) := by
    simp only [Config.coreBase] at hwindow ⊢
    omega
  obtain ⟨we, addr, bytes, wdata⟩ := h
  simp only [fromPort, BitVec.toNat_ofNat, HostAccess.mk.injEq, true_and, and_true]
  exact ⟨haddr, not_not.mp hbytes⟩

theorem present_of_resetSeen {s : State} (hseen : s.resetSeen = true) (h : HostAccess) :
    s.present h = toPort s.cfg h := if_pos hseen

/-- Settles O17: what reaches the port comes from `fromPort`, and what comes from it reaches the port. -/
theorem windowAddressesReachTheirOffsets : Obligations.WindowAddressesReachTheirOffsets := by
  unfold Obligations.WindowAddressesReachTheirOffsets
  intro s h p hseen
  constructor
  · intro hp
    exact eq_fromPort_of_toPort (present_of_resetSeen hseen h ▸ hp)
  · rintro rfl
    exact present_fromPort hseen p

/-- An access the port cannot carry refuses the step, for the port's reason. -/
theorem step_refused {s : State} {h : HostAccess} {rest : List Input} {r : Refusal}
    (hi : s.inputs = .access h :: rest) (hp : s.present h = .error r) : step s = .refused r := by
  simp only [step, hi, hp]

/-- Settles O16: each clause is a check of `toPort`, and a failed check refuses the step. -/
theorem nonWordAccessIsRefused : Obligations.NonWordAccessIsRefused := by
  unfold Obligations.NonWordAccessIsRefused
  intro s h rest hi hseen
  have hp := present_of_resetSeen hseen h
  constructor
  · intro hbytes
    exact step_refused hi (hp.trans (if_pos hbytes))
  · intro hbytes halign
    exact step_refused hi (hp.trans ((if_neg (not_not.mpr hbytes)).trans (if_pos halign)))

/-- Settles O7: a free port performs the access, and `perform` keeps a record or runs the instruction. -/
theorem stepRunsTheDecodedInstruction : Obligations.StepRunsTheDecodedInstruction := by
  unfold Obligations.StepRunsTheDecodedInstruction
  intro s h rest p hi hp hb
  rw [step_free hi hp hb, perform]
  cases (({ s with inputs := rest } : State).beginAccess (decodePort p)).acceptLater (decodePort p) with
  | none => rfl
  | some f => rfl

/-! ## Reads -/

/-- R81: a read of a mapped offset answers its register word, without error, and does nothing else. -/
theorem exec_rd_of_busRead {s : State} {off : BitVec 6} {w : Word} (h : s.busRead off = some w) :
    exec (.rd off) s = .next { s with resp := some ⟨w, false⟩ } := by
  rw [exec_plain_rd, h]
  rfl

/-- Settles O20: each clause is the register word at its offset. -/
theorem readReturnsTheRegisterWord : Obligations.ReadReturnsTheRegisterWord := by
  unfold Obligations.ReadReturnsTheRegisterWord
  intro s
  refine ⟨fun k hk => ?values, ?s, ?cmd, ?status, ?hexlen, fun k => ?hexbuf⟩
  case values =>
    exact ⟨exec_rd_of_busRead (busRead_a s ⟨k, hk⟩), exec_rd_of_busRead (busRead_b s ⟨k, hk⟩),
      exec_rd_of_busRead (busRead_r s ⟨k, hk⟩)⟩
  case s => exact exec_rd_of_busRead (by simp only [State.busRead, windowReg_s])
  case cmd => exact exec_rd_of_busRead (by simp only [State.busRead, windowReg_cmd])
  case status => exact exec_rd_of_busRead (busRead_status s)
  case hexlen => exact exec_rd_of_busRead (by simp only [State.busRead, windowReg_hexlen])
  case hexbuf =>
    exact ⟨hexWord s.hexbuf k, exec_rd_of_busRead (busRead_hexbuf s k), hexWord_lane s.hexbuf k⟩

/-! ## Writing a value word by word (R83) -/

/-- R31: a value is Σ word[k]·2^(32·k). -/
theorem toNat_eq_sum_words (v : Value) :
    v.toNat = ∑ k : Fin 8, (word v k.val).toNat * 2 ^ (32 * k.val) := by
  rw [← wordsNat_words, words_eq]
  simp only [wordsNat, Fin.sum_univ_eight]
  norm_num
  ring

/-- In the atomic reading, a write of a register other than CMD stores its word, is answered, and the rest of
the program goes on from there. -/
theorem atomicRun_write_cons {s t : State} {off : BitVec 6} {v : Word} (ps : List PortAccess)
    (ho : windowReg off ≠ .cmd) (h : s.busWrite off v = some t) :
    atomicRun (⟨true, off, v⟩ :: ps) s = atomicRun ps (t.answer 0) := by
  have hdec : decodePort ⟨true, off, v⟩ = .wr off v := by simp [decodePort, ne_cmdOffset ho]
  rw [atomicRun, hdec, beginAccess_plain rfl, exec_wr_of_busWrite ho h]

@[simp] theorem readDst_answer (s : State) (v : Word) (d : Dst) : (s.answer v).readDst d = s.readDst d := by
  cases d <;> rfl

section
variable {d : Dst} {off : Fin 8 → BitVec 6} (ho : ∀ k, windowReg (off k) ≠ .cmd)
  (hw : ∀ (s : State) k v, s.busWrite (off k) v = some (s.writeDst d (setWord (s.readDst d) k.val v)))
  (w : Fin 8 → Word)
include ho hw

/-- Writes to the word offsets `off` of one value register, in any order, give each word written its data,
leave the register's other words, and touch nothing else but the port's answer. -/
theorem atomicRun_word_writes (order : List (Fin 8)) (s : State) :
    ∃ x ans, atomicRun (order.map fun k => ⟨true, off k, w k⟩) s =
        .next { s.writeDst d x with resp := ans } ∧
      ∀ k : Fin 8, word x k.val = if k ∈ order then w k else word (s.readDst d) k.val := by
  induction order generalizing s with
  | nil =>
    refine ⟨s.readDst d, s.resp, ?_, by simp⟩
    cases d <;> rfl
  | cons i order ih =>
    obtain ⟨x, ans, hrun, hword⟩ := ih ((s.writeDst d (setWord (s.readDst d) i.val (w i))).answer 0)
    refine ⟨x, ans, ?_, fun k => ?_⟩
    · rw [List.map_cons, atomicRun_write_cons _ (ho i) (hw s i (w i)), hrun]
      cases d <;> rfl
    · rw [hword, readDst_answer, readDst_writeDst, if_pos rfl, word_setWord _ _ i.isLt k.isLt]
      by_cases hki : k = i
      · simp [hki]
      · simp [hki, Fin.val_ne_iff.mpr hki]

/-- R83: where every word is written, the register holds the value the words write. -/
theorem atomicRun_all_word_writes {order : List (Fin 8)} (horder : order.Perm (List.finRange 8))
    (s : State) :
    ∃ x ans, atomicRun (order.map fun k => ⟨true, off k, w k⟩) s =
        .next { s.writeDst d x with resp := ans } ∧
      x.toNat = ∑ k : Fin 8, (w k).toNat * 2 ^ (32 * k.val) := by
  obtain ⟨x, ans, hrun, hword⟩ := atomicRun_word_writes ho hw w order s
  refine ⟨x, ans, hrun, ?_⟩
  rw [toNat_eq_sum_words]
  refine Finset.sum_congr rfl fun k _ => ?_
  rw [hword, if_pos (horder.mem_iff.mpr (List.mem_finRange k))]

end

/-- Settles O26: the words of A, and the words of B, are each one register's eight writes. -/
theorem eightWordWritesBuildTheValue : Obligations.EightWordWritesBuildTheValue := by
  unfold Obligations.EightWordWritesBuildTheValue
  intro s w order horder
  constructor
  · obtain ⟨x, ans, hrun, hx⟩ := atomicRun_all_word_writes (d := .a)
      (fun k => by simp [windowReg_a]) busWrite_a w horder s
    exact ⟨_, hrun, hx, rfl⟩
  · obtain ⟨x, ans, hrun, hx⟩ := atomicRun_all_word_writes (d := .b)
      (fun k => by simp [windowReg_b]) busWrite_b w horder s
    exact ⟨_, hrun, hx, rfl⟩

end Sys2Proof.Machine

namespace Sys2Proof

/-! ## Command words (R111 to R115) -/

/-- R112: every OP number from 1 to 10 is an opcode's. -/
theorem exists_opcode_code {n : BitVec 4} (h : 1 ≤ n.toNat ∧ n.toNat ≤ 0xA) :
    ∃ op : Opcode, n = op.code := by
  have hsome : (opcodeOf n).isSome = true := by revert n; decide
  obtain ⟨op, hop⟩ := Option.isSome_iff_exists.mp hsome
  exact ⟨op, opcodeOf_eq_some hop⟩

/-- R113: every DST number but 3 is a destination's. -/
theorem exists_dst_code {n : BitVec 2} (h : n ≠ 3) : ∃ d : Dst, n = d.code := by
  have hsome : (dstOf n).isSome = true := by revert n; decide
  obtain ⟨d, hd⟩ := Option.isSome_iff_exists.mp hsome
  exact ⟨d, dstOf_eq_some hd⟩

/-- R114: an opcode numbered 4 or 5 takes DST 0 only and the others take any. -/
theorem admits_iff_code (op : Opcode) (d : Dst) :
    admits op d ↔ ((op.code = 4 ∨ op.code = 5) → d.code = 0) := by
  unfold admits
  cases op <;> cases d <;> decide

/-- The legal words are the encoded commands: the three fields of a legal word are a command's. -/
theorem legal_iff_exists_command {v : Word} :
    legal v = true ↔ ∃ op d, admits op d ∧ v = encodeCommand op d := by
  constructor
  · intro h
    obtain ⟨hres, hop, hdst, hzero⟩ := of_decide_eq_true h
    obtain ⟨op, ho⟩ := exists_opcode_code hop
    obtain ⟨d, hd⟩ := exists_dst_code hdst
    rw [ho, hd] at hzero
    exact ⟨op, d, (admits_iff_code op d).mpr hzero,
      word_ext_fields (by rw [ho, opField_encode]) (by rw [hd, dstField_encode])
        (by rw [hres, resField_encode])⟩
  · rintro ⟨op, d, ha, rfl⟩
    exact legal_of_decode (decodeCommand_encode ha)

/-- The legality predicate on the number a word is (R115). -/
theorem legal_iff_toNat (v : Word) :
    legal v = true ↔
      v.toNat / 64 = 0 ∧ (1 ≤ v.toNat % 16 ∧ v.toNat % 16 ≤ 0xA) ∧ v.toNat / 16 % 4 ≠ 3 ∧
        ((v.toNat % 16 = 4 ∨ v.toNat % 16 = 5) → v.toNat / 16 % 4 = 0) := by
  rw [← resField_toNat, ← opField_toNat, ← dstField_toNat]
  simp only [legal, decide_eq_true_eq, ne_eq, BitVec.toNat_eq]
  rfl

/-- A word that decodes to no command is not legal. -/
theorem illegal_of_decode_error {v : Word} {e : IllegalCommand} (h : decodeCommand v = .error e) :
    legal v = false := by
  refine Bool.eq_false_iff.mpr fun hl => ?_
  obtain ⟨op, d, ha, rfl⟩ := legal_iff_exists_command.mp hl
  rw [decodeCommand_encode ha] at h
  cases h

/-! ## The decoder and the encoder as inverses (R110, R119) -/

/-- The write of a command's word to CMD is that command. -/
theorem decodePort_command {op : Opcode} {d : Dst} (h : admits op d) :
    decodePort ⟨true, cmdOffset, encodeCommand op d⟩ = instrOf op d := by
  simp only [decodePort, if_true, decodeCommand_encode h]

/-- A write that is no write of a legal word to CMD is a plain write. -/
theorem decodePort_wr {off : BitVec 6} {v : Word} (h : off = cmdOffset → legal v = false) :
    decodePort ⟨true, off, v⟩ = .wr off v := by
  by_cases ho : off = cmdOffset
  · obtain ⟨e, he⟩ := decode_error_of_illegal (h ho)
    simp only [decodePort, if_true, he, ite_self]
  · simp only [decodePort, if_true, if_neg ho]

theorem wellFormed_of_command {i : Instr} {op : Opcode} {d : Dst} (h : commandOf i = some (op, d)) :
    wellFormed i = true := by
  cases i with
  | wr off v => cases h
  | _ => rfl

theorem wellFormed_wr {off : BitVec 6} {v : Word} :
    wellFormed (.wr off v) = true ↔ (off = cmdOffset → legal v = false) := by
  simp [wellFormed, imp_iff_not_or]

end Sys2Proof

namespace Sys2Proof.Machine

/-- Settles O1: a command is decoded from its word, and a plain access is no write of a legal word to CMD. -/
theorem decodeOfEncodeIsTheInstruction : Obligations.DecodeOfEncodeIsTheInstruction := by
  unfold Obligations.DecodeOfEncodeIsTheInstruction
  intro i hwf
  cases hc : commandOf i with
  | some c =>
    obtain ⟨op, d⟩ := c
    obtain ⟨ha, rfl⟩ := commandOf_admits hc
    rw [encode_command hc, decodePort_command ha]
  | none =>
    cases i with
    | rd off => rfl
    | wr off v => exact decodePort_wr (wellFormed_wr.mp hwf)
    | _ => cases hc

/-- Settles O2: an access that is a command is the write of its word to CMD, and any other is a plain read
or write, of an illegal word where it writes CMD. -/
theorem encodeOfDecodeIsTheAccess : Obligations.EncodeOfDecodeIsTheAccess := by
  unfold Obligations.EncodeOfDecodeIsTheAccess
  rintro ⟨we, addr, wdata⟩
  cases hc : commandOf (decodePort ⟨we, addr, wdata⟩) with
  | some c =>
    obtain ⟨op, d⟩ := c
    obtain ⟨rfl, rfl, rfl, -⟩ := commandOf_decodePort hc
    exact ⟨wellFormed_of_command hc, encode_command hc⟩
  | none =>
    rw [decodePort_plain hc]
    cases we with
    | false => exact ⟨rfl, rfl⟩
    | true =>
      refine ⟨wellFormed_wr.mpr fun ha => ?_, rfl⟩
      obtain ⟨e, he⟩ := decodePort_plain_cmd hc rfl ha
      exact illegal_of_decode_error he

/-! ## The 26 listed words (R115, R121) -/

theorem legal_of_mem_commandTable : ∀ v ∈ commandTable.map Prod.fst, legal v = true := by
  rw [List.forall_mem_map]
  decide

theorem encodeCommand_mem_commandTable {op : Opcode} {d : Dst} (h : admits op d) :
    encodeCommand op d ∈ commandTable.map Prod.fst := by
  unfold admits at h
  cases op <;> cases d <;> revert h <;> decide

/-- Settles O3: the legal words are the encoded commands, each of which is listed. -/
theorem exactlyTheListedWordsAreLegal : Obligations.ExactlyTheListedWordsAreLegal := by
  unfold Obligations.ExactlyTheListedWordsAreLegal
  refine ⟨by decide, rfl, fun v => ⟨legal_iff_toNat v, fun hl => ?_, legal_of_mem_commandTable v⟩⟩
  obtain ⟨op, d, ha, rfl⟩ := legal_iff_exists_command.mp hl
  exact encodeCommand_mem_commandTable ha

/-- Settles O4: row by row, over the closed list. -/
theorem listedCommandWordsDecode : Obligations.ListedCommandWordsDecode := by
  unfold Obligations.ListedCommandWordsDecode
  decide

/-- Settles O5: submitting a command's word and running the command both write the command's result. -/
theorem cmdWriteOfALegalWordIsItsCommand : Obligations.CmdWriteOfALegalWordIsItsCommand := by
  unfold Obligations.CmdWriteOfALegalWordIsItsCommand
  intro s op d ha
  rw [exec_cmd_wr, exec_command (commandOf_instrOf ha), State.submit, decodeCommand_encode ha]

end Sys2Proof.Machine

namespace Sys2Proof.Machine

/-! ## Commands that write a value register -/

theorem exec_of_result {i : Instr} {op : Opcode} {d : Dst} {s : State} {w : Result}
    (hc : commandOf i = some (op, d)) (hw : commandResult s.cfg.mulAlg op d s.sample = w) :
    exec i s = .next (s.commit w) := by
  rw [exec_command hc, hw]

/-- R47: a command whose result is the value `x` writes it to reg[DST], sets ERR to 0 and leaves everything
else. -/
theorem completesWith_of_result {i : Instr} {op : Opcode} {d : Dst} {s : State} {x : Value}
    (hc : commandOf i = some (op, d)) (hx : commandResult s.cfg.mulAlg op d s.sample = .value d x) :
    CompletesWith i s d x := by
  refine ⟨_, exec_of_result hc hx, ?_⟩
  rw [commit_value]
  simp +contextual

/-- A word extended to a value is its word 0, under words that are 0. -/
theorem word_setWidth (w : Word) (k : Nat) : word (w.setWidth 256) k = if k = 0 then w else 0 := by
  have hw := w.isLt
  apply BitVec.eq_of_toNat_eq
  rw [word_toNat, BitVec.toNat_setWidth_of_le (by decide)]
  by_cases hk : k = 0
  · rw [if_pos hk, hk]
    omega
  · have hlt : w.toNat < 2 ^ (32 * k) := hw.trans_le (Nat.pow_le_pow_right (by decide) (by omega))
    rw [if_neg hk, Nat.div_eq_of_lt hlt]
    rfl

/-- Settles O27: LDI writes S extended to 256 bits. -/
theorem ldiLoadsS : Obligations.LdiLoadsS := by
  unfold Obligations.LdiLoadsS
  intro s d
  refine ⟨s.s.setWidth 256, completesWith_of_result rfl rfl, ?_, fun k hk _ => ?_⟩
  · rw [word_setWidth, if_pos rfl]
  · rw [word_setWidth, if_neg (by omega)]

/-! ## Hex digits (R140) -/

/-- Settles O28: each class of bytes takes its branch of `nib`. -/
theorem nibGivesTheDigitsValue : Obligations.NibGivesTheDigitsValue := by
  unfold Obligations.NibGivesTheDigitsValue
  intro c
  refine ⟨fun hlo hhi => ?decimal, fun hlo hhi => ?lower, fun hlo hhi => ?upper, fun hother => ?other⟩
  case decimal =>
    rw [nib, if_pos ⟨hlo, hhi⟩, BitVec.toNat_ofNat]
    omega
  case lower =>
    rw [nib, if_neg (by omega), if_pos ⟨hlo, hhi⟩, BitVec.toNat_ofNat]
    omega
  case upper =>
    rw [nib, if_neg (by omega), if_neg (by omega), if_pos ⟨hlo, hhi⟩, BitVec.toNat_ofNat]
    omega
  case other =>
    rw [nib, if_neg (by omega), if_neg (by omega), if_neg (by omega)]

/-! ## HEXDEC (R143, R144) -/

theorem exec_hexdec_ok {s : State} (d : Dst) (h : s.hexlen.toNat ≤ 68) :
    exec (.hexdec d) s = .next (s.commit (.value d (parse (s.hexbuf.toList.take s.hexlen.toNat)))) :=
  exec_of_result rfl (hexdecResult_ok d (o := s.sample) h)

/-- Buffers that agree below `n` hold the same first `n` bytes. -/
theorem take_hexbuf_congr {buf buf' : HexBuf} {n : Nat}
    (h : ∀ k : Fin 68, k.val < n → buf[k] = buf'[k]) : buf.toList.take n = buf'.toList.take n := by
  refine List.ext_getElem (by simp) fun k hk _ => ?_
  simp only [List.length_take, Vector.length_toList, lt_inf_iff] at hk
  simpa using h ⟨k, hk.2⟩ hk.1

/-- Settles O30: both states give HEXDEC the same string to parse. -/
theorem hexdecReadsOnlyItsBytes : Obligations.HexdecReadsOnlyItsBytes := by
  unfold Obligations.HexdecReadsOnlyItsBytes
  intro s s' d hlen hle hbytes
  refine ⟨_, _, exec_hexdec_ok d hle, exec_hexdec_ok d (hlen ▸ hle), ?_, rfl⟩
  rw [← hlen, take_hexbuf_congr hbytes]
  simp [commit_value]

/-! ## HEXSH (R147) -/

/-- The shift frees the nibble the digit is ORed into, so the OR is the sum 16·A + digit mod 2^256. -/
theorem shiftLeft_four_or_digit (a : Value) (n : Nibble) :
    a <<< 4 ||| n.setWidth 256 = BitVec.ofNat 256 (16 * a.toNat + n.toNat) := by
  have hdisjoint : a <<< 4 &&& n.setWidth 256 = 0#256 := by
    ext i hi
    by_cases h : i < 4
    · simp [h]
    · simp [BitVec.getLsbD_of_ge n i (by omega)]
  have hn := n.isLt
  rw [← BitVec.add_eq_or_of_and_eq_zero _ _ hdisjoint]
  apply BitVec.eq_of_toNat_eq
  rw [BitVec.toNat_add, BitVec.toNat_shiftLeft, Nat.shiftLeft_eq, BitVec.toNat_setWidth,
    BitVec.toNat_ofNat]
  omega

theorem hexshResult_eq (d : Dst) (o : Operands) :
    hexshResult d o =
      .value d (BitVec.ofNat 256 (16 * o.a.toNat + (nib (o.s.extractLsb' 0 8)).toNat)) := by
  rw [hexshResult, shiftLeft_four_or_digit]

/-- Settles O31: HEXSH writes its result, which is the sum. -/
theorem hexshShiftsInOneDigit : Obligations.HexshShiftsInOneDigit := by
  unfold Obligations.HexshShiftsInOneDigit
  intro s d
  exact completesWith_of_result rfl (hexshResult_eq d s.sample)

/-! ## Parse (R141) -/

theorem parseNat_eq_sum (cs : List Byte) :
    parseNat cs = ∑ j : Fin cs.length, (nib cs[j]).toNat * 16 ^ (cs.length - 1 - j.val) := by
  induction cs with
  | nil => rfl
  | cons c cs ih =>
    rw [parseNat, ih]
    simp [Fin.sum_univ_succ, Nat.sub_sub, Nat.add_comm]

/-- Characters before the last 64 weigh a multiple of 16^64 = 2^256, so they do not contribute. -/
theorem parse_append_of_length_64 (xs : List Byte) {ys : List Byte} (h : ys.length = 64) :
    parse (xs ++ ys) = parse ys := by
  have hweight : (16 : Nat) ^ 64 = 2 ^ 256 := by norm_num
  apply BitVec.eq_of_toNat_eq
  rw [parse, parse, BitVec.toNat_ofNat, BitVec.toNat_ofNat, parseNat_append, h, hweight,
    Nat.mul_add_mod_self_right]

/-- Settles O33: `parseNat` is the sum, and the characters before the last 64 do not contribute. -/
theorem parseIsThePositionalSum : Obligations.ParseIsThePositionalSum := by
  unfold Obligations.ParseIsThePositionalSum
  intro cs
  constructor
  · rw [parse, BitVec.toNat_ofNat, parseNat_eq_sum]
  · by_cases h : cs.length ≤ 64
    · rw [Nat.sub_eq_zero_of_le h, List.drop_zero]
    · have hlast : (cs.drop (cs.length - 64)).length = 64 := by
        rw [List.length_drop]
        omega
      rw [← parse_append_of_length_64 (cs.take (cs.length - 64)) hlast, List.take_append_drop]

/-- One character more shifts the string up by one digit. -/
theorem parse_concat (cs : List Byte) (c : Byte) :
    parse (cs ++ [c]) = BitVec.ofNat 256 (16 * (parse cs).toNat + (nib c).toNat) := by
  apply BitVec.eq_of_toNat_eq
  simp only [parse, parseNat_append, parseNat, List.length_singleton, List.length_nil,
    BitVec.toNat_ofNat]
  omega

/-! ## Streaming a string into A (R120, R148) -/

/-- In the atomic reading, the write of a command's word to CMD stores the word, is answered, and runs the
command; the rest of the program goes on from there. -/
theorem atomicRun_command_cons {op : Opcode} {d : Dst} {s : State} {w : Result} (ps : List PortAccess)
    (ha : admits op d) (hw : commandResult s.cfg.mulAlg op d s.sample = w) :
    atomicRun (⟨true, cmdOffset, encodeCommand op d⟩ :: ps) s =
      atomicRun ps ((({ s with cmd := encodeCommand op d } : State).answer 0).commit w) := by
  have hc := commandOf_instrOf ha
  rw [atomicRun, decodePort_command ha, beginAccess_command hc, exec_command hc, ← hw]
  rfl

/-- A write of S and then a command that writes `x` to A: whatever program comes next goes on from a state
with `x` in A. -/
theorem atomicRun_s_command_a {op : Opcode} {s : State} {v : Word} {x : Value} (ha : admits op .a)
    (hx : commandResult s.cfg.mulAlg op .a { s.sample with s := v } = .value .a x) :
    ∃ t, t.a = x ∧ ∀ ps,
      atomicRun (⟨true, 24, v⟩ :: ⟨true, cmdOffset, encodeCommand op .a⟩ :: ps) s = atomicRun ps t := by
  have hrun (ps : List PortAccess) :=
    (atomicRun_write_cons _ (by decide) (busWrite_s s v)).trans (atomicRun_command_cons ps ha hx)
  exact ⟨_, by simp [commit_value], hrun⟩

/-- The accesses of `hexstream` for one character: S gets it and `hexsh.a` runs (R120). -/
def streamChar (c : Byte) : List PortAccess := [⟨true, 24, c.setWidth 32⟩, ⟨true, 25, 0x13⟩]

/-- Streaming one character after the string `seen` leaves in A the Parse of both. -/
theorem atomicRun_streamChar {s : State} {seen : List Byte} (h : s.a = parse seen) (c : Byte) :
    ∃ t, t.a = parse (seen ++ [c]) ∧ ∀ ps, atomicRun (streamChar c ++ ps) s = atomicRun ps t := by
  refine atomicRun_s_command_a (op := .hexsh) (.inl rfl) ?_
  have hlow : (c.setWidth 32).extractLsb' 0 8 = c := by
    ext i hi
    simp [hi]
    omega
  exact (hexshResult_eq .a _).trans (by rw [hlow, parse_concat, ← h]; rfl)

/-- Streaming `cs` after the string `seen` leaves in A the Parse of both, by induction on `cs`. -/
theorem atomicRun_stream (cs : List Byte) {s : State} {seen : List Byte} (h : s.a = parse seen) :
    ∃ t, atomicRun (cs.flatMap streamChar) s = .next t ∧ t.a = parse (seen ++ cs) := by
  induction cs generalizing s seen with
  | nil => exact ⟨s, rfl, by rw [List.append_nil, h]⟩
  | cons c cs ih =>
    obtain ⟨u, hu, hrun⟩ := atomicRun_streamChar h c
    obtain ⟨t, ht, hparse⟩ := ih hu
    refine ⟨t, ?_, ?_⟩
    · rw [List.flatMap_cons, hrun, ht]
    · rw [hparse, List.append_assoc, List.singleton_append]

/-- Settles O32: `ldi.a` with S = 0 leaves in A the Parse of the empty string, and the stream goes on. -/
theorem streamingAStringParsesIt : Obligations.StreamingAStringParsesIt := by
  unfold Obligations.StreamingAStringParsesIt
  intro s cs
  obtain ⟨u, hu, hrun⟩ := atomicRun_s_command_a (op := .ldi) (s := s) (v := 0) (.inl rfl) rfl
  obtain ⟨t, ht, hparse⟩ := atomicRun_stream cs (s := u) (seen := []) hu
  exact ⟨t, (hrun _).trans ht, hparse⟩

end Sys2Proof.Machine

namespace Sys2Proof.Machine

/-! ## Fmt (R171) -/

/-- The characters of the low `n` nibbles of `v`, the most significant first. -/
def lowDigits (v : Value) (n : Nat) : List Byte :=
  (List.range n).reverse.map fun j => hexchar (nibble v j)

theorem lowDigits_succ (v : Value) (n : Nat) :
    lowDigits v (n + 1) = hexchar (nibble v n) :: lowDigits v n := by
  simp [lowDigits, List.range_succ]

@[simp] theorem lowDigits_length (v : Value) (n : Nat) : (lowDigits v n).length = n := by
  simp [lowDigits]

/-- The low `n` digits write the value mod 16^n, by induction on `n`: each digit is its nibble. -/
theorem parseNat_lowDigits (v : Value) (n : Nat) : parseNat (lowDigits v n) = v.toNat % 16 ^ n := by
  induction n with
  | zero => simp [lowDigits, parseNat, Nat.mod_one]
  | succ n ih =>
    rw [lowDigits_succ, parseNat, nib_hexchar, lowDigits_length, ih, nibble_toNat, Nat.mod_pow_succ]
    ring

theorem fmt_zero : fmt 0 = [0x30] := by
  rcases fmt_cases 0 with ⟨-, h⟩ | ⟨h, -⟩
  · exact h
  · exact absurd rfl h

/-- A value other than 0 is written from its top non-zero nibble down, and those digits hold all of it. -/
theorem fmt_of_ne_zero {v : Value} (h : v ≠ 0) :
    ∃ t, fmt v = lowDigits v (t + 1) ∧ nibble v t ≠ 0 ∧ v.toNat % 16 ^ (t + 1) = v.toNat := by
  rcases fmt_cases v with ⟨h0, -⟩ | ⟨-, t, -, htop, hall, hfmt⟩
  · exact absurd h0 h
  · exact ⟨t, hfmt, htop, hall⟩

theorem fmt_head_ne {v : Value} (h : v ≠ 0) : ∃ c cs, fmt v = c :: cs ∧ c ≠ 0x30 := by
  obtain ⟨t, hfmt, htop, -⟩ := fmt_of_ne_zero h
  exact ⟨_, _, hfmt.trans (lowDigits_succ v t), fun hc => htop (eq_zero_of_hexchar _ hc)⟩

theorem exists_hexchar_of_mem_fmt {v : Value} {c : Byte} (hc : c ∈ fmt v) : ∃ d, hexchar d = c := by
  by_cases h : v = 0
  · rw [h, fmt_zero, List.mem_singleton] at hc
    exact ⟨0, hc.symm⟩
  · obtain ⟨t, hfmt, -⟩ := fmt_of_ne_zero h
    rw [hfmt, lowDigits, List.mem_map] at hc
    obtain ⟨j, -, hj⟩ := hc
    exact ⟨nibble v j, hj⟩

theorem parseNat_fmt (v : Value) : parseNat (fmt v) = v.toNat := by
  by_cases h : v = 0
  · rw [h, fmt_zero]
    rfl
  · obtain ⟨t, hfmt, -, hall⟩ := fmt_of_ne_zero h
    rw [hfmt, parseNat_lowDigits, hall]

/-- Settles O35: Fmt's characters are those of the nibbles from the top non-zero one down. -/
theorem fmtIsTheMinimalLowercaseNumeral : Obligations.FmtIsTheMinimalLowercaseNumeral := by
  unfold Obligations.FmtIsTheMinimalLowercaseNumeral
  intro v
  refine ⟨fun h => h ▸ fmt_zero, fmt_head_ne, fun c hc => ?lowercase, parseNat_fmt v⟩
  case lowercase =>
    obtain ⟨d, rfl⟩ := exists_hexchar_of_mem_fmt hc
    exact hexchar_lowercase d

/-! ## HEXENC (R170, R172) -/

/-- The state HEXENC leaves: Fmt(A) in HEXBUF, its length in HEXLEN, ERR 0 and the rest as it was. -/
def State.formatted (s : State) : State :=
  { s with hexbuf := fillHexBuf (fmt s.a), hexlen := BitVec.ofNat 7 (fmt s.a).length, err := .noError }

theorem exec_hexenc (s : State) : exec .hexenc s = .next s.formatted :=
  exec_command (i := .hexenc) rfl s

/-- Fmt's length, at most 64, fits in the 7 bits of HEXLEN. -/
theorem formatted_hexlen (s : State) : s.formatted.hexlen.toNat = (fmt s.a).length := by
  have hle := (fmt_length s.a).2
  rw [State.formatted, BitVec.toNat_ofNat]
  omega

theorem fillHexBuf_get (cs : List Byte) (k : Fin 68) : (fillHexBuf cs)[k] = cs.getD k.val 0 := by
  simp [fillHexBuf]

/-- Settles O34: the state HEXENC leaves, written out. -/
theorem hexencWritesTheString : Obligations.HexencWritesTheString := by
  unfold Obligations.HexencWritesTheString
  intro s
  obtain ⟨hpos, hle⟩ := fmt_length s.a
  exact ⟨_, exec_hexenc s, hpos, hle, formatted_hexlen s, fillHexBuf_get (fmt s.a), rfl, rfl⟩

/-! ## Round trips (R174) -/

theorem parse_fmt (v : Value) : parse (fmt v) = v := by
  rw [parse, parseNat_fmt, BitVec.ofNat_toNat, BitVec.setWidth_eq]

/-- A string that fits is read back from the buffer by its length. -/
theorem take_fillHexBuf {cs : List Byte} (h : cs.length ≤ 68) :
    (fillHexBuf cs).toList.take cs.length = cs := by
  refine List.ext_getElem (by simpa using h) fun k _ hk => ?_
  simpa [hk] using fillHexBuf_get cs ⟨k, by omega⟩

/-- After HEXENC the string HEXDEC reads, HEXBUF up to HEXLEN, is Fmt(A). -/
theorem take_formatted_hexbuf (s : State) :
    s.formatted.hexbuf.toList.take s.formatted.hexlen.toNat = fmt s.a := by
  have hle := (fmt_length s.a).2
  rw [formatted_hexlen]
  exact take_fillHexBuf (by omega)

/-- After HEXENC, `hexdec.a` writes the A and the ERR that stand there already. -/
theorem exec_hexdec_a_formatted (s : State) : exec (.hexdec .a) s.formatted = .next s.formatted := by
  have hle := (fmt_length s.a).2
  have hfit : s.formatted.hexlen.toNat ≤ 68 := by
    rw [formatted_hexlen]
    omega
  rw [exec_hexdec_ok .a hfit, take_formatted_hexbuf, parse_fmt]
  rfl

/-- Settles O36: HEXDEC reads the string HEXENC wrote, and Parse undoes Fmt. -/
theorem hexRoundTrip : Obligations.HexRoundTrip := by
  unfold Obligations.HexRoundTrip
  refine ⟨parse_fmt, fun s => ?encodeDecodeEncode, fun s hlen => ?decodeEncode⟩
  case encodeDecodeEncode =>
    exact ⟨_, _, _, exec_hexenc s, exec_hexdec_a_formatted s, exec_hexenc s.formatted,
      rfl, rfl, rfl, rfl⟩
  case decodeEncode =>
    exact ⟨_, _, exec_hexdec_ok .a hlen, exec_hexenc _, take_formatted_hexbuf _⟩

end Sys2Proof.Machine

namespace Sys2Proof.Machine

/-! ## BTST (R190 to R192) -/

/-- R192: the bit BTST looks up by word and offset is the value's bit at the index. -/
theorem btstResult_eq (o : Operands) :
    btstResult o = .bit (if o.s.toNat < 256 then o.a.getLsbD o.s.toNat else false) := by
  rw [btstResult, word_getLsbD]

/-- Settles O37: BTST writes its result, which is bit S of A below the guard and 0 from it on. -/
theorem btstTestsTheBit : Obligations.BtstTestsTheBit := by
  unfold Obligations.BtstTestsTheBit
  intro s
  exact ⟨_, exec_of_result (i := .btst) rfl (btstResult_eq s.sample), rfl, rfl, rfl⟩

end Sys2Proof.Machine

namespace Sys2Proof.Machine

/-! ## ADD (R213) -/

theorem add256_comm (x y : Value) (c : Bool) : add256 x y c = add256 y x c := by
  rw [add256_eq, add256_eq, Nat.add_comm x.toNat]

theorem addResult_eq (d : Dst) (o : Operands) : addResult d o = .value d (o.a + o.b) := by
  rw [addResult, add256_false]

/-- Settles O38: the adder's law, and ADD writes the sum. -/
theorem addGivesTheSum : Obligations.AddGivesTheSum := by
  unfold Obligations.AddGivesTheSum
  refine ⟨fun x y c => ⟨?law, add256_comm x y c⟩, fun s d => ?command⟩
  case law => rw [add256_eq, BitVec.toNat_ofNat]
  case command =>
    rw [← BitVec.add_def]
    exact completesWith_of_result rfl (addResult_eq d s.sample)

/-! ## NEG (R217) -/

theorem add256_true (x y : Value) : add256 x y true = x + y + 1#256 := by
  rw [add256_eq]
  apply BitVec.eq_of_toNat_eq
  simp

/-- The "+1" of two's complement is the adder's carry in. -/
theorem neg256_eq_add256_not (x : Value) : neg256 x = add256 (~~~x) 0 true := by
  rw [neg256_eq, add256_true, add_zero, BitVec.neg_eq_not_add]

theorem add256_neg256_self (x : Value) : add256 x (neg256 x) false = 0 := by
  rw [add256_false, neg256_eq, add_neg_cancel]

theorem negResult_eq (d : Dst) (o : Operands) : negResult d o = .value d (-o.a) := by
  rw [negResult, neg256_eq]

theorem ofNat_twoPow_sub_toNat (x : Value) : BitVec.ofNat 256 (2 ^ 256 - x.toNat) = -x := by
  apply BitVec.eq_of_toNat_eq
  rw [BitVec.toNat_ofNat, BitVec.toNat_neg]

/-- Settles O39: the negator's laws, and NEG writes the negation. -/
theorem negGivesTheComplement : Obligations.NegGivesTheComplement := by
  unfold Obligations.NegGivesTheComplement
  refine ⟨fun x => ⟨?law, neg256_eq_add256_not x, add256_neg256_self x⟩, fun s d => ?command⟩
  case law => rw [neg256_eq, BitVec.toNat_neg]
  case command =>
    rw [ofNat_twoPow_sub_toNat]
    exact completesWith_of_result rfl (negResult_eq d s.sample)

/-- Settles O44: `add.r` adds to A the negation of A that `neg.b` left in B. -/
theorem addOfTheNegationIsZero : Obligations.AddOfTheNegationIsZero := by
  unfold Obligations.AddOfTheNegationIsZero
  intro s
  refine ⟨_, _, exec_of_result (i := .neg .b) rfl (negResult_eq .b _),
    exec_of_result (i := .add .r) rfl (addResult_eq .r _), ?_⟩
  simp [commit_value, State.sample]

/-! ## SUB (R221) -/

theorem add256_neg256_cancel (x y : Value) : add256 (add256 x y false) (neg256 y) false = x := by
  rw [add256_false, add256_false, neg256_eq, add_neg_cancel_right]

/-- Subtraction takes one pass of the adder: the complement of y, and the "+1" as its carry in. -/
theorem add256_neg256_eq_add256_not (x y : Value) :
    add256 x (neg256 y) false = add256 x (~~~y) true := by
  rw [add256_false, add256_true, neg256_eq, BitVec.neg_eq_not_add, add_assoc]

theorem subResult_eq (d : Dst) (o : Operands) : subResult d o = .value d (o.a - o.b) := by
  rw [subResult, add256_false, neg256_eq, sub_eq_add_neg]

/-- The natural difference does not underflow, since y is below the 2^256 that is added. -/
theorem ofNat_add_twoPow_sub_toNat (x y : Value) :
    BitVec.ofNat 256 (x.toNat + 2 ^ 256 - y.toNat) = x - y := by
  apply BitVec.eq_of_toNat_eq
  rw [BitVec.toNat_ofNat, BitVec.toNat_sub', Nat.add_sub_assoc y.isLt.le]

/-- Settles O40: the adder's laws over the negator, and SUB writes the difference. -/
theorem subGivesTheDifference : Obligations.SubGivesTheDifference := by
  unfold Obligations.SubGivesTheDifference
  refine ⟨fun x y => ⟨add256_neg256_cancel x y, add256_neg256_eq_add256_not x y⟩, fun s d => ?command⟩
  case command =>
    rw [ofNat_add_twoPow_sub_toNat]
    exact completesWith_of_result rfl (subResult_eq d s.sample)

/-- Settles O45: `sub.a` takes from A + B the B that `add.a` left in place. -/
theorem subUndoesAdd : Obligations.SubUndoesAdd := by
  unfold Obligations.SubUndoesAdd
  intro s
  refine ⟨_, _, exec_of_result (i := .add .a) rfl (addResult_eq .a _),
    exec_of_result (i := .sub .a) rfl (subResult_eq .a _), ?_⟩
  simp [commit_value, State.sample]

/-! ## SHL (R226, R264) -/

/-- Settles O41: within range SHL writes the left shift of A by S; past it, the error alone. -/
theorem shlGivesTheShift : Obligations.ShlGivesTheShift := by
  unfold Obligations.ShlGivesTheShift
  refine ⟨rfl, fun s d => ⟨fun hs => ⟨s.a <<< s.s.toNat, ?command, ?value, fun i hi => ?bit⟩,
    fun hs => ?error⟩⟩
  case command => exact completesWith_of_result rfl (shlResult_ok d (o := s.sample) hs)
  case value => rw [BitVec.toNat_shiftLeft, Nat.shiftLeft_eq]
  case bit =>
    simp only [BitVec.getLsbD_shiftLeft, hi, decide_true, Bool.true_and, ← decide_not, not_lt]
  case error => exact exec_of_result (i := .shl d) rfl (shlResult_error d (o := s.sample) hs)

/-! ## MUL (R230, R231) -/

/-- Every algorithm gives MUL the product. -/
theorem mulResult_eq (alg : MulAlg) (d : Dst) (o : Operands) :
    mulResult alg d o = .value d (o.a * o.b) := by
  rw [mulResult, mul256_eq]

/-- Settles O42: the reference multiplier gives the product, and MUL writes it with every algorithm. -/
theorem mulGivesTheProduct : Obligations.MulGivesTheProduct := by
  unfold Obligations.MulGivesTheProduct
  refine ⟨fun x y => ⟨?law, ?comm⟩, fun s d => ?command⟩
  case law => rw [mulShiftAdd_eq, BitVec.toNat_mul]
  case comm => rw [mulShiftAdd_eq, mulShiftAdd_eq, mul_comm]
  case command =>
    rw [BitVec.ofNat_mul, BitVec.ofNat_toNat, BitVec.ofNat_toNat, BitVec.setWidth_eq,
      BitVec.setWidth_eq]
    exact completesWith_of_result rfl (mulResult_eq s.cfg.mulAlg d s.sample)

end Sys2Proof.Machine

namespace Sys2Proof.Machine

/-! ## No error stops the block (R260) -/

/-- R260: a command writes its result and a plain access is answered, with or without a bus error. -/
theorem exec_next (i : Instr) (s : State) : ∃ t, exec i s = .next t := by
  cases hc : commandOf i with
  | some c => exact ⟨_, exec_command (op := c.1) (d := c.2) hc s⟩
  | none =>
    cases i with
    | rd off => exact ⟨_, exec_plain_rd off s⟩
    | wr off v =>
      by_cases ho : off = cmdOffset
      · rw [ho]
        exact ⟨_, exec_cmd_wr v s⟩
      · exact ⟨_, exec_plain_wr ho v s⟩
    | _ => cases hc

/-- Settles O19: every instruction is a command or a plain access, and neither stops the block. -/
theorem everyInstructionAnswersANextState : Obligations.EveryInstructionAnswersANextState :=
  exec_next

/-- R303: a completing access goes in flight or runs its instruction, which answers a next state. -/
theorem perform_next (i : Instr) (s : State) : ∃ t, perform i s = .next t := by
  unfold perform
  cases (s.beginAccess i).acceptLater i with
  | some f => exact ⟨_, rfl⟩
  | none => exact exec_next i _

/-- An access that reaches the port is performed, answered as a read of STATUS, or waits. -/
theorem step_next_of_present {s : State} {h : HostAccess} {rest : List Input} {p : PortAccess}
    (hi : s.inputs = .access h :: rest) (hp : s.present h = .ok p) : ∃ t, step s = .next t := by
  cases hb : s.busy with
  | false =>
    rw [step_free hi hp hb]
    exact perform_next _ _
  | true =>
    by_cases hs : isStatusRead p
    · exact ⟨_, step_statusRead hi hp hb hs⟩
    · exact ⟨_, step_waiting hi hp hb hs⟩

/-- R77, R78, R301: the access `present` turns away fails one of its checks. -/
theorem present_error {s : State} {h : HostAccess} {r : Refusal} (he : s.present h = .error r) :
    s.resetSeen = false ∨ h.bytes ≠ 4 ∨ h.addr % 4 ≠ 0 ∨
      h.addr < s.cfg.coreBase ∨ s.cfg.coreBase + 256 ≤ h.addr := by
  by_contra hall
  push Not at hall
  obtain ⟨hseen, hbytes, halign, hlo, hhi⟩ := hall
  rw [present_of_resetSeen (by simpa using hseen), toPort, if_neg (not_not.mpr hbytes),
    if_neg (not_not.mpr halign), if_neg (by omega)] at he
  cases he

theorem step_idle {s : State} {rest : List Input} (hi : s.inputs = .idle :: rest) :
    step s = .next { s with inputs := rest }.edgeWithoutAccess := by
  simp only [step, hi]

theorem step_reset {s : State} {rest : List Input} (hi : s.inputs = .reset :: rest) :
    step s = .next { s with inputs := rest }.resetEdge := by
  simp only [step, hi]

/-- Settles O18: only an access can stop a step, and only where `present` turns it away. -/
theorem stepStopsOnlyAtThePort : Obligations.StepStopsOnlyAtThePort := by
  unfold Obligations.StepStopsOnlyAtThePort
  intro s
  cases hi : s.inputs with
  | nil => exact .inl ⟨_, step_empty hi⟩
  | cons input rest =>
    cases input with
    | idle => exact .inl ⟨_, step_idle hi⟩
    | reset => exact .inl ⟨_, step_reset hi⟩
    | access h =>
      cases hp : s.present h with
      | ok p => exact .inl (step_next_of_present hi hp)
      | error r => exact .inr ⟨h, rest, rfl, present_error hp⟩

/-! ## Bus errors (R270, R271) -/

theorem windowReg_eq_unmapped_iff : ∀ off : BitVec 6,
    windowReg off = .unmapped ↔ (28 ≤ off.toNat ∧ off.toNat ≤ 31) ∨ 49 ≤ off.toNat := by decide

theorem exists_windowReg_eq_r_iff : ∀ off : BitVec 6,
    (∃ k, windowReg off = .r k) ↔ 16 ≤ off.toNat ∧ off.toNat ≤ 23 := by decide

theorem windowReg_eq_status_iff : ∀ off : BitVec 6,
    windowReg off = .status ↔ off.toNat = 26 := by decide

/-- R81 BusRead: the reads that are bus errors. -/
theorem busRead_eq_none_iff (s : State) (off : BitVec 6) :
    s.busRead off = none ↔ (28 ≤ off.toNat ∧ off.toNat ≤ 31) ∨ 49 ≤ off.toNat := by
  rw [← windowReg_eq_unmapped_iff, State.busRead]
  cases windowReg off <;> simp

/-- R81 BusWrite: the writes that are bus errors. -/
theorem busWrite_eq_none_iff (s : State) (off : BitVec 6) (v : Word) :
    s.busWrite off v = none ↔ (28 ≤ off.toNat ∧ off.toNat ≤ 31) ∨ 49 ≤ off.toNat ∨
      (16 ≤ off.toNat ∧ off.toNat ≤ 23) ∨ off.toNat = 26 := by
  rw [← or_assoc, ← windowReg_eq_unmapped_iff, ← exists_windowReg_eq_r_iff,
    ← windowReg_eq_status_iff, State.busWrite]
  cases windowReg off <;> simp

@[simp] theorem submit_resp (s : State) (v : Word) : (s.submit v).resp = s.resp := by
  unfold State.submit
  split
  · rfl
  · exact commit_resp _ _

/-- R270: a write of an offset that takes none changes nothing but the port's answer. -/
theorem exec_wr_busError {s : State} {off : BitVec 6} {v : Word} (h : s.busWrite off v = none) :
    exec (.wr off v) s = .next s.raiseBusError := by
  have ho : off ≠ cmdOffset := by
    rintro rfl
    rw [busWrite_cmd] at h
    cases h
  rw [exec_plain_wr ho, h]
  rfl

/-- R271: a write of any other offset, a submission included, is answered without error. -/
theorem exec_wr_resp {s u : State} {off : BitVec 6} {v : Word} (h : s.busWrite off v = some u) :
    ∃ t, exec (.wr off v) s = .next t ∧ t.resp = some ⟨0, false⟩ := by
  by_cases ho : off = cmdOffset
  · rw [ho]
    exact ⟨_, exec_cmd_wr v s, submit_resp _ v⟩
  · rw [exec_plain_wr ho, h]
    exact ⟨_, rfl, rfl⟩

/-- Settles O21: an access is a bus error where `busRead` or `busWrite` has no answer for its offset. -/
theorem busErrorsAreExactlyThese : Obligations.BusErrorsAreExactlyThese := by
  unfold Obligations.BusErrorsAreExactlyThese
  intro s off v
  simp only [← busRead_eq_none_iff s off, ← busWrite_eq_none_iff s off v]
  constructor
  · cases hr : s.busRead off with
    | none =>
      rw [if_pos rfl, exec_plain_rd, hr]
      rfl
    | some w =>
      rw [if_neg (by simp)]
      exact ⟨w, exec_rd_of_busRead hr⟩
  · cases hw : s.busWrite off v with
    | none =>
      rw [if_pos rfl]
      exact exec_wr_busError hw
    | some u =>
      rw [if_neg (by simp)]
      exact exec_wr_resp hw

/-! ## Command errors (R261 to R267) -/

/-- Settles O29: within the buffer HEXDEC writes Parse of its string; past it, the error alone. -/
theorem hexdecParsesTheBuffer : Obligations.HexdecParsesTheBuffer := by
  unfold Obligations.HexdecParsesTheBuffer
  refine ⟨rfl, fun s d => ⟨fun hlen => ?ok, fun hlen => ?error⟩⟩
  case ok => exact completesWith_of_result rfl (hexdecResult_ok d (o := s.sample) hlen)
  case error => exact exec_of_result (i := .hexdec d) rfl (hexdecResult_error d (o := s.sample) hlen)

/-- R266: the ERR a command leaves, by opcode and operands. -/
theorem commit_command_err (s : State) (alg : MulAlg) (op : Opcode) (d : Dst) (o : Operands) :
    (s.commit (commandResult alg op d o)).err =
      if op = .shl ∧ 255 < o.s.toNat then .shiftRange
      else if op = .hexdec ∧ 68 < o.hexlen.toNat then .hexlenRange
      else .noError := by
  rcases commandResult_cases alg op d o with ⟨v, -, hshl, hhexdec, e⟩ | ⟨buf, len, ho, e⟩ |
    ⟨x, ho, e⟩ | ⟨ho, hs, e⟩ | ⟨ho, hlen, e⟩ <;> rw [e]
  · rw [if_neg hshl, if_neg hhexdec, commit_value, setErr_err]
  · simp [ho, commit_text]
  · simp [ho, commit_bit]
  · rw [if_pos ⟨ho, hs⟩, commit_error]
  · simp [ho, hlen, commit_error]

/-- Settles O46: a command's meaning is the write of its result, and `commit_command_err` is its ERR. -/
theorem commandErrorsAreExactlyThese : Obligations.CommandErrorsAreExactlyThese := by
  unfold Obligations.CommandErrorsAreExactlyThese
  intro s i op d hc
  exact ⟨_, exec_command hc s, commit_command_err s _ op d s.sample⟩

/-- R263: a CMD write of a word that is not legal stores it and raises ILLEGAL_CMD. -/
theorem exec_wr_illegal {v : Word} (h : legal v = false) (s : State) :
    exec (.wr cmdOffset v) s =
      .next { s with cmd := v, err := .illegalCmd, resp := some ⟨0, false⟩ } := by
  obtain ⟨e, he⟩ := decode_error_of_illegal h
  rw [exec_cmd_wr, State.submit, he]
  rfl

/-- Settles O6: each of the four causes fails a clause of the legality predicate. -/
theorem illegalWordOnlySetsErrAndCmd : Obligations.IllegalWordOnlySetsErrAndCmd := by
  unfold Obligations.IllegalWordOnlySetsErrAndCmd
  refine ⟨rfl, fun s v hcause => exec_wr_illegal ?_ s⟩
  rw [Bool.eq_false_iff, ne_eq, legal_iff_toNat]
  simp only [List.mem_cons, List.not_mem_nil, or_false] at hcause
  omega

/-- R261, R303: a command whose operand check fails is not kept for later, whatever its latency. -/
theorem acceptLater_of_error {i : Instr} {op : Opcode} {d : Dst} {s : State} {e : ErrCode}
    (hc : commandOf i = some (op, d))
    (he : commandResult s.cfg.mulAlg op d s.sample = .error e) : s.acceptLater i = none := by
  simp [State.acceptLater, hc, he, Result.isError]

/-- R261: performing a command whose operand check fails begins the access and raises the error. -/
theorem perform_command_error {i : Instr} {op : Opcode} {d : Dst} {s : State} {e : ErrCode}
    (hc : commandOf i = some (op, d))
    (he : commandResult (s.beginAccess i).cfg.mulAlg op d (s.beginAccess i).sample = .error e) :
    perform i s = .next { s.beginAccess i with err := e } := by
  rw [perform, acceptLater_of_error hc he]
  exact exec_of_result hc he

section
variable {s : State} {h : HostAccess} {rest : List Input} {p : PortAccess}

/-- R261: a command whose operand check fails completes at its accepting edge with its error alone. -/
theorem step_command_error {op : Opcode} {d : Dst} {e : ErrCode} (hi : s.inputs = .access h :: rest)
    (hp : s.present h = .ok p) (hb : s.busy = false) (hc : commandOf (decodePort p) = some (op, d))
    (he : commandResult s.cfg.mulAlg op d s.sample = .error e) :
    step s = .next { s with inputs := rest, cmd := p.wdata, resp := some ⟨0, false⟩, err := e } := by
  obtain ⟨-, -, hword, -⟩ := commandOf_decodePort hc
  have hbegin := beginAccess_command hc { s with inputs := rest }
  rw [step_free hi hp hb, perform_command_error hc (by rw [hbegin]; exact he), hbegin, hword]

/-- R263: the write of a word that is not legal completes at its edge with ILLEGAL_CMD alone. -/
theorem step_illegal_word (hi : s.inputs = .access h :: rest) (hp : s.present h = .ok p)
    (hb : s.busy = false) (hw : p.we = true) (ha : p.addr = cmdOffset)
    (hl : legal p.wdata = false) :
    step s =
      .next { s with inputs := rest, cmd := p.wdata, resp := some ⟨0, false⟩, err := .illegalCmd } := by
  obtain ⟨we, addr, v⟩ := p
  obtain rfl : we = true := hw
  obtain rfl : addr = cmdOffset := ha
  have hplain : commandOf (.wr cmdOffset v) = none := rfl
  rw [step_free hi hp hb, decodePort_wr fun _ => hl, perform, beginAccess_plain hplain,
    acceptLater_plain hplain]
  exact exec_wr_illegal hl { s with inputs := rest }

end

/-- Settles O9: an illegal word is a plain write, and the two operand checks are the commands' own. -/
theorem rejectedCommandCompletesAtItsEdge : Obligations.RejectedCommandCompletesAtItsEdge := by
  unfold Obligations.RejectedCommandCompletesAtItsEdge
  rintro s h rest p e hi hp hb hw ha (⟨hl, rfl⟩ | ⟨⟨d, hd⟩, hs, rfl⟩ | ⟨⟨d, hd⟩, hlen, rfl⟩)
  · exact step_illegal_word hi hp hb hw ha hl
  · exact step_command_error (op := .shl) (d := d) hi hp hb (by rw [hd]; rfl)
      (shlResult_error d (o := s.sample) hs)
  · exact step_command_error (op := .hexdec) (d := d) hi hp hb (by rw [hd]; rfl)
      (hexdecResult_error d (o := s.sample) hlen)

end Sys2Proof.Machine

namespace Sys2Proof.Machine

/-! ## Reset (R300) -/

@[simp] theorem resetEdge_status (s : State) : s.resetEdge.status = 0 := by
  simp [State.status, State.busy, ErrCode.code]

/-- Settles O13: the edge at which rst = 1 gives `resetEdge`, whose fields are the reset values. -/
theorem resetEdgeGivesTheResetValues : Obligations.ResetEdgeGivesTheResetValues := by
  unfold Obligations.ResetEdgeGivesTheResetValues
  intro s rest hi
  exact ⟨_, step_reset hi, rfl, rfl, rfl, rfl, rfl, resetEdge_status _, rfl,
    fun k => Vector.getElem_replicate k.isLt, rfl⟩

/-! ## Latency 0 (R304) -/

/-- R304: no record is kept of a command of latency 0. -/
theorem acceptLater_of_latency_zero {i : Instr} {op : Opcode} {d : Dst} {s : State}
    (hc : commandOf i = some (op, d)) (hl : latency s.cfg op = 0) : s.acceptLater i = none := by
  simp [State.acceptLater, hc, hl]

/-- Settles O8: no record is kept, so the command runs at the accepting edge, and it puts nothing in
flight. -/
theorem latencyZeroCompletesAtTheAcceptingEdge :
    Obligations.LatencyZeroCompletesAtTheAcceptingEdge := by
  unfold Obligations.LatencyZeroCompletesAtTheAcceptingEdge
  intro s h rest p op d hi hp hb hc hlat
  obtain ⟨-, -, hword, -⟩ := commandOf_decodePort hc
  have hnow : ({ s with inputs := rest, cmd := p.wdata, resp := some ⟨0, false⟩ } : State).acceptLater
      (decodePort p) = none := acceptLater_of_latency_zero hc hlat
  refine ⟨_, ?_, ?_, exec_command hc _⟩
  · rw [step_free hi hp hb, perform, beginAccess_command hc, ← hword, hnow]
    exact exec_command hc _
  · rw [busy_eq_false, commit_inflight]
    exact busy_eq_false.mp hb

/-! ## One edge of a command in flight (R303, R305, R306) -/

theorem busy_of_inflight {s : State} {f : InFlight} (h : s.inflight = some f) : s.busy = true := by
  simp [State.busy, h]

theorem not_reset_of_access {s : State} {h : HostAccess} {rest : List Input}
    (hi : s.inputs = .access h :: rest) : ∀ rest', s.inputs ≠ .reset :: rest' := by
  simp [hi]

section
variable {s t : State} {f : InFlight}

/-- R303 item 4, R305: with two or more cycles left, an edge that is no reset takes one and changes no
register. -/
theorem step_inflight_counts (hf : s.inflight = some f) (hr : ∀ rest, s.inputs ≠ .reset :: rest)
    (h : step s = .next t) (hl : 2 ≤ f.left) :
    t.inflight = some { f with left := f.left - 1 } ∧ t.registers = s.registers := by
  obtain ⟨ins, ans, -, rfl⟩ := step_eq_tick hf hr h
  rw [tick_count (s := { s with inputs := ins, resp := ans }) hf (by omega)]
  exact ⟨rfl, rfl⟩

/-- R303 item 5, R305: at the edge that leaves no cycle the command's results are written, and nothing is in
flight. -/
theorem step_inflight_done (hf : s.inflight = some f) (hr : ∀ rest, s.inputs ≠ .reset :: rest)
    (h : step s = .next t) (hl : f.left ≤ 1) :
    t.inflight = none ∧ t.registers = (s.commit (f.result s.cfg)).registers := by
  obtain ⟨ins, ans, -, rfl⟩ := step_eq_tick hf hr h
  rw [tick_done (s := { s with inputs := ins, resp := ans }) hf hl]
  exact ⟨rfl, commit_registers_congr (s := { s with inputs := ins, resp := ans }) (t := s) rfl _⟩

/-- R306: BUSY follows the record: it stays 1 while cycles are left and becomes 0 at the last. -/
theorem step_inflight_busy (hf : s.inflight = some f) (hr : ∀ rest, s.inputs ≠ .reset :: rest)
    (h : step s = .next t) :
    (2 ≤ f.left → t.busy = true ∧ t.inflight = some { f with left := f.left - 1 } ∧
      t.registers = s.registers) ∧
    (f.left = 1 → t.busy = false ∧ t.registers = (s.commit (f.result s.cfg)).registers) := by
  constructor
  · intro hl
    obtain ⟨hcount, hreg⟩ := step_inflight_counts hf hr h hl
    exact ⟨busy_of_inflight hcount, hcount, hreg⟩
  · intro hl
    obtain ⟨hidle, hreg⟩ := step_inflight_done hf hr h hl.le
    exact ⟨busy_eq_false.mpr hidle, hreg⟩

end

/-- Settles O58: the two ways a command in flight can advance. -/
theorem commandInFlightAdvancesAtEveryEdge : Obligations.CommandInFlightAdvancesAtEveryEdge := by
  unfold Obligations.CommandInFlightAdvancesAtEveryEdge
  intro s t f hf hr h
  exact ⟨step_inflight_counts hf hr h, fun hl => step_inflight_done hf hr h hl.le⟩

/-- Settles O52: BUSY = 1 after the edge rules out a reset and the command's last cycle. -/
theorem noRegisterChangesWhileBusy : Obligations.NoRegisterChangesWhileBusy := by
  unfold Obligations.NoRegisterChangesWhileBusy
  intro s t h hs ht
  obtain ⟨f, hf⟩ := Option.isSome_iff_exists.mp hs
  have hidle : t.inflight ≠ none := fun e => by simp [State.busy, e] at ht
  have hr : ∀ rest, s.inputs ≠ .reset :: rest := by
    intro rest hi
    rw [step_reset hi] at h
    cases h
    exact hidle rfl
  have hl : 2 ≤ f.left := by
    by_contra hlast
    exact hidle (step_inflight_done hf hr h (by omega)).1
  exact (step_inflight_counts hf hr h hl).2

/-! ## The wait rule (R306) -/

/-- What the port makes of an access depends on the parameters and on whether a reset has come. -/
theorem present_congr {s t : State} (hcfg : t.cfg = s.cfg) (hseen : t.resetSeen = s.resetSeen)
    (h : HostAccess) : t.present h = s.present h := by
  simp only [State.present, hcfg, hseen]

@[simp] theorem tick_present (s : State) (h : HostAccess) : s.tick.present h = s.present h :=
  present_congr (tick_cfg s) (tick_resetSeen s) h

@[simp] theorem edgeWithoutAccess_inputs (s : State) : s.edgeWithoutAccess.inputs = s.inputs := tick_inputs _
@[simp] theorem edgeWithoutAccess_resp (s : State) : s.edgeWithoutAccess.resp = none := tick_resp _
@[simp] theorem edgeWithoutAccess_present (s : State) (h : HostAccess) :
    s.edgeWithoutAccess.present h = s.present h :=
  tick_present _ h

/-- Settles O12: the access waits (`step_waiting`) or is answered (`step_statusRead`), and either edge lets
the command advance; the access that waited is performed at the first free edge. -/
theorem waitRule : Obligations.WaitRule := by
  unfold Obligations.WaitRule
  intro s f h rest p hf hi hp
  have hb := busy_of_inflight hf
  have hr := not_reset_of_access hi
  constructor
  · intro hs
    have hstep := step_waiting hi hp hb hs
    obtain ⟨hcount, hdone⟩ := step_inflight_busy hf hr hstep
    refine ⟨_, hstep, edgeWithoutAccess_inputs s, edgeWithoutAccess_resp s, hcount, fun hl => ?_⟩
    obtain ⟨hfree, hreg⟩ := hdone hl
    exact ⟨hfree, hreg, step_free ((edgeWithoutAccess_inputs s).trans hi)
      ((edgeWithoutAccess_present s h).trans hp) hfree⟩
  · intro hs
    have hstep := step_statusRead hi hp hb hs
    obtain ⟨hcount, hdone⟩ := step_inflight_busy hf hr hstep
    exact ⟨_, hstep, tick_inputs _, tick_resp _, (status_layout s).1.trans hb, hcount, hdone⟩

/-! ## Runs, edge by edge -/

/-- A run begins with its first edge. -/
theorem run_succ {s t : State} (h : step s = .next t) (n : Nat) :
    Host.Core.run core (n + 1) s = Host.Core.run core n t := by
  have hcore : core.step s = .next t := h
  simp only [Host.Core.run, hcore]

/-- A run goes on by one edge. -/
theorem run_succ_last {s t u : State} {n : Nat} (h : Host.Core.run core n s = .next t)
    (hstep : step t = .next u) : Host.Core.run core (n + 1) s = .next u := by
  induction n generalizing s with
  | zero => cases h; exact run_succ hstep 0
  | succ n ih =>
    cases hs : step s with
    | next v => rw [run_succ hs] at h ⊢; exact ih h
    | fault r => cases r
    | refused r =>
      have hcore : core.step s = .refused r := hs
      simp [Host.Core.run, hcore] at h

/-! ## The edges of a command in flight (R303, R305, R311) -/

theorem mem_take_succ_of_mem_take_tail {α : Type} {x : α} {l : List α} {n : Nat}
    (h : x ∈ l.tail.take n) : x ∈ l.take (n + 1) := by
  rw [← Nat.add_sub_cancel (n := n) (m := 1), ← List.tail_take_eq_take_tail] at h
  exact List.mem_of_mem_tail h

/-- Of what is presented at the next `n` edges, nothing is a reset, and the port can carry each access. -/
def State.Undisturbed (s : State) (n : Nat) : Prop :=
  ∀ i ∈ s.inputs.take n, i ≠ .reset ∧ ∀ h, i = .access h → ∃ p, s.present h = .ok p

theorem State.Undisturbed.not_reset {s : State} {n : Nat} (h : s.Undisturbed (n + 1)) :
    ∀ rest, s.inputs ≠ .reset :: rest :=
  fun rest hi => (h .reset (by simp [hi])).1 rfl

theorem State.Undisturbed.present {s : State} {n : Nat} (hu : s.Undisturbed (n + 1)) (h : HostAccess)
    (rest : List Input) (hi : s.inputs = .access h :: rest) : ∃ p, s.present h = .ok p :=
  (hu (.access h) (by simp [hi])).2 h rfl

/-- An undisturbed edge of a command in flight is a next state, and leaves the edges to come undisturbed. -/
theorem State.Undisturbed.step {s : State} {f : InFlight} {n : Nat} (hu : s.Undisturbed (n + 1))
    (hf : s.inflight = some f) : ∃ t, step s = .next t ∧ t.cfg = s.cfg ∧ t.Undisturbed n := by
  obtain ⟨t, h⟩ := step_next_of_inflight hf hu.present
  obtain ⟨ins, ans, hins, rfl⟩ := step_eq_tick hf hu.not_reset h
  have hsub : ∀ i ∈ ins.take n, i ∈ s.inputs.take (n + 1) := by
    intro i hmem
    rcases hins with rfl | rfl
    · exact List.take_subset_take_left _ n.le_succ hmem
    · exact mem_take_succ_of_mem_take_tail hmem
  refine ⟨_, h, tick_cfg _, fun i hmem => ?_⟩
  rw [tick_inputs] at hmem
  obtain ⟨hreset, hport⟩ := hu i (hsub i hmem)
  refine ⟨hreset, fun h hi => ?_⟩
  rw [tick_present]
  exact hport h hi

/-- R303, R305: as many undisturbed edges as leave a cycle take one cycle each and change no register. -/
theorem run_inflight_counts {s : State} {f : InFlight} (hf : s.inflight = some f) {j m : Nat}
    (hj : j < f.left) (hu : s.Undisturbed (j + m)) :
    ∃ t, Host.Core.run core j s = .next t ∧ t.inflight = some { f with left := f.left - j } ∧
      t.registers = s.registers ∧ t.cfg = s.cfg ∧ t.Undisturbed m := by
  induction j generalizing m with
  | zero => exact ⟨s, rfl, hf, rfl, rfl, by simpa using hu⟩
  | succ j ih =>
    obtain ⟨t, hrun, hft, hreg, hcfg, hut⟩ := ih (m := m + 1) (by omega) (by rwa [Nat.add_right_comm] at hu)
    obtain ⟨u, hstep, hcfgu, huu⟩ := hut.step hft
    obtain ⟨hfu, hregu⟩ := step_inflight_counts hft hut.not_reset hstep (by simp only; omega)
    exact ⟨u, run_succ_last hrun hstep, hfu, hregu.trans hreg, hcfgu.trans hcfg, huu⟩

/-- R303 items 5 and 6: at the last of its undisturbed edges the command writes its results. -/
theorem run_inflight_done {s : State} {f : InFlight} {k : Nat} (hf : s.inflight = some f)
    (hl : f.left = k + 1) (hu : s.Undisturbed (k + 1)) :
    ∃ t, Host.Core.run core (k + 1) s = .next t ∧ t.inflight = none ∧
      t.registers = (s.commit (f.result s.cfg)).registers := by
  obtain ⟨t, hrun, hft, hreg, hcfg, hut⟩ := run_inflight_counts hf (j := k) (by omega) hu
  obtain ⟨u, hstep, -⟩ := hut.step hft
  obtain ⟨hidle, hregu⟩ := step_inflight_done hft hut.not_reset hstep (by simp only; omega)
  refine ⟨u, run_succ_last hrun hstep, hidle, hregu.trans ?_⟩
  rw [hcfg]
  exact commit_registers_congr hreg _

/-- While a command is in flight nothing completes at the port, whatever it last answered. -/
def State.Stalls (s : State) : Prop :=
  ∀ ans f, step { s with resp := ans, inflight := some f } =
    .next ({ s with resp := ans, inflight := some f } : State).edgeWithoutAccess

theorem State.Stalls.step {s : State} {f : InFlight} (h : s.Stalls) (hf : s.inflight = some f) :
    step s = .next s.edgeWithoutAccess := by
  have hs := h s.resp f
  rwa [← hf] at hs

theorem stalls_of_empty {s : State} (hi : s.inputs = []) : s.Stalls := fun _ _ => step_empty hi

theorem stalls_of_waiting {s : State} {h : HostAccess} {rest : List Input} {p : PortAccess}
    (hi : s.inputs = .access h :: rest) (hp : s.present h = .ok p) (hs : ¬ isStatusRead p) : s.Stalls :=
  fun _ _ => step_waiting hi hp rfl hs

/-- R303, R306: where nothing completes at the port, the command's cycles change nothing but what it writes,
its record and the port's answer. -/
theorem run_stalled {s : State} {f : InFlight} {k : Nat} (hs : s.Stalls) (hf : s.inflight = some f)
    (hl : f.left = k + 1) : Host.Core.run core (k + 1) s =
      .next { s.commit (f.result s.cfg) with inflight := none, resp := none } := by
  induction k generalizing s f with
  | zero => rw [run_succ (hs.step hf), edgeWithoutAccess_done hf (by omega)]; rfl
  | succ k ih =>
    have hstep := hs.step hf
    rw [edgeWithoutAccess_count hf (by omega)] at hstep
    have hrun := ih (s := { s with resp := none, inflight := some { f with left := f.left - 1 } })
      hs rfl (by simp only; omega)
    rw [commit_with_resp_inflight] at hrun
    exact (run_succ hstep (k + 1)).trans hrun

/-- Settles O11: the cycles that are counted, the one at which the results are written, and, where nothing is
presented, the whole state. -/
theorem commandCompletesAfterItsCycles : Obligations.CommandCompletesAfterItsCycles := by
  unfold Obligations.CommandCompletesAfterItsCycles
  intro s f k hf hl hu
  refine ⟨fun j hj => ?_, run_inflight_done hf hl hu, fun hi => run_stalled (stalls_of_empty hi) hf hl⟩
  have hsplit : j + (k + 1 - j) = k + 1 := by omega
  obtain ⟨t, hrun, hft, hreg, -⟩ :=
    run_inflight_counts hf (j := j) (m := k + 1 - j) (by omega) (by rw [hsplit]; exact hu)
  exact ⟨t, hrun, by rw [hft, hl], hreg⟩

/-! ## A presented access completes (R311) -/

/-- R303: with no command in flight the access presented completes at the next edge. -/
theorem step_free_completes {s : State} {h : HostAccess} {rest : List Input} {p : PortAccess}
    (hi : s.inputs = .access h :: rest) (hp : s.present h = .ok p) (hf : s.inflight = none) :
    ∃ t, step s = .next t ∧ t.inputs = rest := by
  obtain ⟨t, -, ht, -, -, -, -, hins, -⟩ := perform_settles p (s := { s with inputs := rest }) hf
  exact ⟨t, (step_free hi hp (busy_eq_false.mpr hf)).trans ht, hins⟩

/-- R306, R311: an access that waits completes at the edge after the command's last cycle. -/
theorem run_waiting_completes {s : State} {f : InFlight} {h : HostAccess} {rest : List Input}
    {p : PortAccess} (hf : s.inflight = some f) (hl : 1 ≤ f.left) (hi : s.inputs = .access h :: rest)
    (hp : s.present h = .ok p) (hs : ¬ isStatusRead p) :
    ∃ t, Host.Core.run core (f.left + 1) s = .next t ∧ t.inputs = rest := by
  have hleft : f.left = f.left - 1 + 1 := by omega
  have hrun := run_stalled (stalls_of_waiting hi hp hs) hf hleft
  rw [← hleft] at hrun
  have hpresent := present_congr (commit_cfg s (f.result s.cfg)) (commit_resetSeen s _) h
  obtain ⟨t, ht, hins⟩ := step_free_completes
    (s := { s.commit (f.result s.cfg) with inflight := none, resp := none })
    ((commit_inputs s _).trans hi) (hpresent.trans hp) rfl
  exact ⟨t, run_succ_last hrun ht, hins⟩

/-- Settles O55: one edge at a free port and for a read of STATUS; for an access that waits, one more than
the cycles left, which the invariant bounds by LAT_op. -/
theorem waitingAccessCompletes : Obligations.WaitingAccessCompletes := by
  unfold Obligations.WaitingAccessCompletes
  intro s h rest p hinv hi hp
  cases hf : s.inflight with
  | none =>
    obtain ⟨t, ht, hins⟩ := step_free_completes hi hp hf
    exact ⟨1, t, run_succ ht 0, hins, nofun, fun _ => rfl⟩
  | some f =>
    by_cases hs : isStatusRead p
    · exact ⟨1, _, run_succ (step_statusRead hi hp (busy_of_inflight hf) hs) 0, tick_inputs _,
        fun _ _ => Nat.le_add_left 1 _, nofun⟩
    · obtain ⟨-, hl, hlat, -⟩ := hinv f hf
      obtain ⟨t, hrun, hins⟩ := run_waiting_completes hf hl hi hp hs
      refine ⟨f.left + 1, t, hrun, hins, ?_, nofun⟩
      rintro g ⟨⟩
      exact Nat.succ_le_succ hlat

/-! ## The end of a run (R311, R312) -/

/-- Settles O56: the block simulates the atomic reading of its program to the end (`Simulates.runs_to_end`). -/
theorem timedRunEqualsAtomicRun : Obligations.TimedRunEqualsAtomicRun := by
  unfold Obligations.TimedRunEqualsAtomicRun
  intro s ps hf hseen hins
  obtain ⟨t, u, as, hruns, hb, hi, hu, hreg, hobs⟩ :=
    (simulates_start (v := { s with inputs := [] }) hf hseen hins ⟨rfl, rfl⟩).runs_to_end
  obtain ⟨n, hrun, hon⟩ := hruns.run_observe
  exact ⟨n, t, u, hrun, runOver_of_empty hi hb, hi, hu, hreg, fun hps => hon.trans (hobs hps)⟩

/-- A run that is over stays over when its next input is dropped and the port gives no answer. -/
theorem State.RunOver.drop {s : State} (h : s.RunOver) :
    ({ s with inputs := s.inputs.tail, resp := none } : State).RunOver :=
  ⟨fun hst hmem => h.1 hst (List.mem_of_mem_tail hmem), h.2⟩

/-- Settles O59: each edge drops an idle edge at most and completes nothing (`step_of_runOver`). -/
theorem observationIsFinalOnceTheRunIsOver : Obligations.ObservationIsFinalOnceTheRunIsOver := by
  unfold Obligations.ObservationIsFinalOnceTheRunIsOver
  intro s n hover hr
  induction n generalizing s with
  | zero => exact ⟨⟨s, rfl, hover, rfl⟩, rfl⟩
  | succ n ih =>
    have hstep := step_of_runOver hover fun rest hi => hr (by simp [hi])
    have htail : .reset ∉ s.inputs.tail.take n := fun hmem => hr (mem_take_succ_of_mem_take_tail hmem)
    obtain ⟨⟨t, hrun, hot, hreg⟩, hobs⟩ :=
      ih { s with inputs := s.inputs.tail, resp := none } hover.drop htail
    exact ⟨⟨t, (run_succ hstep n).trans hrun, hot, hreg⟩, by simp [observe, hstep, hobs]⟩

end Sys2Proof.Machine
